-- ==== Sys2Proof/Word.lean ====
section
/-! DEFINITION. Word.lean: the widths of the rvm core (00_scope.md R5, R7). -/

namespace Sys2Proof

/-- `u8`: an opcode byte, a register-operand byte, a byte of memory (R7). -/
abbrev Byte := BitVec 8

/-- `u64`: a register value, an immediate, an address, the program counter (R7, R12, R24). -/
abbrev Word := BitVec 64

/-- The index of one of the eight general registers `x[0]` to `x[7]` (R20). -/
abbrev RegIx := Fin 8

end Sys2Proof
end

