-- ==== Sys2Proof/Machine/Flags.lean ====
section
/-! DEFINITION. Machine/Flags.lean: the core has no status flags, condition codes or predicate registers (10_state.md
R31), so there is no flag computation. What stands in their place: the test of a register against zero
and the 0 or 1 that CMP and NOT write to a register. -/

namespace Sys2Proof.Machine

open Sys2Proof

/-- The test of a general register against zero, on all 64 bits (R31, R162). -/
def isZero (v : Word) : Bool := v == 0

/-- A truth value as a register holds it: 1 or 0 (R31, R144). -/
def boolWord (b : Bool) : Word := if b then 1 else 0

end Sys2Proof.Machine
end

