-- ==== Sys2Proof/Machine/Alu.lean ====
section
/-! DEFINITION. Machine/Alu.lean: the ALU on 64-bit unsigned words (42_arithmetic.md R126, 43_logic_compare.md). -/

namespace Sys2Proof.Machine

open Sys2Proof

/-- `wrap64(a + b)` (R120). -/
def aluAdd (a b : Word) : Word := a + b

/-- `(a - b) mod 2^64` (R121). -/
def aluSub (a b : Word) : Word := a - b

/-- The low 64 bits of the product (R122). -/
def aluMul (a b : Word) : Word := a * b

/-- Unsigned division truncated toward zero, for a divisor that is not 0 (R123, R126). -/
def aluDiv (a b : Word) : Word := BitVec.ofNat 64 (a.toNat / b.toNat)

/-- Bitwise AND (R140). -/
def aluAnd (a b : Word) : Word := a &&& b

/-- Bitwise OR (R142). -/
def aluOr (a b : Word) : Word := a ||| b

/-- Bitwise exclusive OR (R143). -/
def aluXor (a b : Word) : Word := a ^^^ b

/-- Logical negation: 1 if the word is 0, else 0 (R141). -/
def aluNot (a : Word) : Word := boolWord (isZero a)

/-- Equality of the full words: 1 or 0 (R144). -/
def aluCmp (a b : Word) : Word := boolWord (a == b)

end Sys2Proof.Machine
end

