-- ==== Sys2Proof/Syntax.lean ====
section
/-! DEFINITION. Syntax.lean: the 22 instructions of the catalog (30_encoding.md R65), one constructor per row of
spec/opcode_table.json, in opcode order. Register operands are indices already reduced by `reg(b)` (R63, R85);
immediates and addresses are 64-bit words (R64). The operands stand in the order of the catalog's fields. -/

namespace Sys2Proof

/-- The five instruction formats (R62). -/
inductive Format where
  /-- `op` -/
  | n
  /-- `op r1` -/
  | r
  /-- `op r1 r2` -/
  | rr
  /-- `op r1 r2 r3` -/
  | rrr
  /-- `op r1 i0 .. i7` -/
  | ri
  deriving DecidableEq, Repr

/-- The instructions (R65). Operand names are the catalog's: `rd` destination, `rs` source, `ra` and `rb` the two
sources of a three-register form, `rc` condition or counter, `rt` jump target, `rn` trap number, `rv` trap data. -/
inductive Instr where
  /-- opcode 0, R160 -/
  | halt
  /-- opcode 1, R100 -/
  | load (rd : RegIx) (imm : Word)
  /-- opcode 2, R101 -/
  | loadAddr (rd : RegIx) (addr : Word)
  /-- opcode 3, R102 -/
  | storeAddr (rs : RegIx) (addr : Word)
  /-- opcode 4, R103 -/
  | move (rd rs : RegIx)
  /-- opcode 5, R120 -/
  | add (rd ra rb : RegIx)
  /-- opcode 6, R121 -/
  | sub (rd ra rb : RegIx)
  /-- opcode 7, R122 -/
  | mul (rd ra rb : RegIx)
  /-- opcode 8, R123 -/
  | div (rd ra rb : RegIx)
  /-- opcode 9, R124 -/
  | inc (rd : RegIx)
  /-- opcode 10, R125 -/
  | dec (rd : RegIx)
  /-- opcode 11, R140 -/
  | and (rd ra rb : RegIx)
  /-- opcode 12, R141 -/
  | not (rd : RegIx)
  /-- opcode 13, R142 -/
  | or (rd ra rb : RegIx)
  /-- opcode 14, R143 -/
  | xor (rd ra rb : RegIx)
  /-- opcode 15, R144 -/
  | cmp (rd ra rb : RegIx)
  /-- opcode 16, R161 -/
  | jump (rt : RegIx)
  /-- opcode 17, R162 -/
  | jumpIfNz (rc rt : RegIx)
  /-- opcode 18, R163 -/
  | jumpIfZ (rc rt : RegIx)
  /-- opcode 19, R164 -/
  | loop (rc rt : RegIx)
  /-- opcode 20, R180 -/
  | trap (rn rv : RegIx)
  /-- opcode 21, R184 -/
  | print (rs : RegIx)
  deriving DecidableEq, Repr

end Sys2Proof
end

