-- ==== Sys2Proof/Decode.lean ====
section
/-! DEFINITION. Decode.lean: the instruction catalog, the decoder and the encoder (30_encoding.md R60 to R69). -/

namespace Sys2Proof

/-! ### Byte order (R9, R43, R64) -/

/-- The value of a little-endian byte sequence: byte `k` counts `2^(8k)` (R9). -/
def leValue : List Byte → Nat
  | [] => 0
  | b :: bs => b.toNat + 256 * leValue bs

/-- The `n` low bytes of `v`, least significant first (R9, R43). -/
def leBytes : Nat → Nat → List Byte
  | 0, _ => []
  | n + 1, v => BitVec.ofNat 8 v :: leBytes n (v / 256)

/-! ### Operand fields (R61 to R64) -/

/-- `reg(b) = b mod 8`: the register a register-operand byte selects (R22, R63). -/
def reg (b : Byte) : RegIx := ⟨b.toNat % 8, Nat.mod_lt _ (by decide)⟩

/-- The byte that names a register, 0 to 7: the one value the assembler emits (R63, R70). -/
def regByte (r : RegIx) : Byte := BitVec.ofNat 8 r.val

/-- An immediate or address field: its eight bytes little-endian (R64). -/
def imm64 (bytes : List Byte) : Word := BitVec.ofNat 64 (leValue bytes)

/-- The eight bytes of an immediate or address field (R64). -/
def immBytes (v : Word) : List Byte := leBytes 8 v.toNat

/-! ### The catalog (R62, R65) -/

/-- `operand_bytes` of a format (R62). -/
def Format.operandBytes : Format → Nat
  | .n => 0
  | .r => 1
  | .rr => 2
  | .rrr => 3
  | .ri => 9

/-- The length of an instruction in bytes, opcode included (R60, R62). -/
def Format.length (f : Format) : Nat := 1 + f.operandBytes

/-- A catalog entry: the format together with the instruction it builds from the decoded operands. -/
inductive Entry where
  | n (mk : Instr)
  | r (mk : RegIx → Instr)
  | rr (mk : RegIx → RegIx → Instr)
  | rrr (mk : RegIx → RegIx → RegIx → Instr)
  | ri (mk : RegIx → Word → Instr)

/-- The format column of a catalog entry (R65). -/
def Entry.format : Entry → Format
  | .n _ => .n
  | .r _ => .r
  | .rr _ => .rr
  | .rrr _ => .rrr
  | .ri _ => .ri

/-- The Instruction Catalog: the entry of an opcode byte, none for the 234 unknown opcodes (R65, R66). -/
def catalog (op : Byte) : Option Entry :=
  match op.toNat with
  | 0 => some (.n .halt)
  | 1 => some (.ri .load)
  | 2 => some (.ri .loadAddr)
  | 3 => some (.ri .storeAddr)
  | 4 => some (.rr .move)
  | 5 => some (.rrr .add)
  | 6 => some (.rrr .sub)
  | 7 => some (.rrr .mul)
  | 8 => some (.rrr .div)
  | 9 => some (.r .inc)
  | 10 => some (.r .dec)
  | 11 => some (.rrr .and)
  | 12 => some (.r .not)
  | 13 => some (.rrr .or)
  | 14 => some (.rrr .xor)
  | 15 => some (.rrr .cmp)
  | 16 => some (.r .jump)
  | 17 => some (.rr .jumpIfNz)
  | 18 => some (.rr .jumpIfZ)
  | 19 => some (.rr .loop)
  | 20 => some (.rr .trap)
  | 21 => some (.r .print)
  | _ => none

/-! ### The decoder (R66, R67, R69, R83 to R85) -/

/-- Why a byte sequence is not an instruction. -/
inductive DecodeError where
  /-- There is no byte at all. The Step never decodes there (R81, R82). -/
  | noByte
  /-- The opcode byte is not in the catalog (R66, R83). -/
  | unknownOpcode (op : Byte)
  /-- The opcode is known and its operand bytes are not all there (R84). -/
  | truncated (op : Byte)
  deriving DecidableEq, Repr

/-- Reads the operand fields of an entry, in order (R85); none if fewer bytes are left than it has. -/
def readOperands : Entry → List Byte → Option (Instr × List Byte)
  | .n mk, bs => some (mk, bs)
  | .r mk, r1 :: bs => some (mk (reg r1), bs)
  | .rr mk, r1 :: r2 :: bs => some (mk (reg r1) (reg r2), bs)
  | .rrr mk, r1 :: r2 :: r3 :: bs => some (mk (reg r1) (reg r2) (reg r3), bs)
  | .ri mk, r1 :: i0 :: i1 :: i2 :: i3 :: i4 :: i5 :: i6 :: i7 :: bs =>
    some (mk (reg r1) (imm64 [i0, i1, i2, i3, i4, i5, i6, i7]), bs)
  | _, _ => none

/-- The instruction at the front of a byte sequence, with the bytes after it (R69). The catalog lookup comes
before the length check (R66, R207). -/
def decode : List Byte → Except DecodeError (Instr × List Byte)
  | [] => .error .noByte
  | op :: bs =>
    match catalog op with
    | none => .error (.unknownOpcode op)
    | some e =>
      match readOperands e bs with
      | none => .error (.truncated op)
      | some r => .ok r

/-! ### The encoder (R60, R62, R65) -/

/-- The opcode byte of an instruction (R65). -/
def Instr.opcode : Instr → Byte
  | .halt => 0x00
  | .load _ _ => 0x01
  | .loadAddr _ _ => 0x02
  | .storeAddr _ _ => 0x03
  | .move _ _ => 0x04
  | .add _ _ _ => 0x05
  | .sub _ _ _ => 0x06
  | .mul _ _ _ => 0x07
  | .div _ _ _ => 0x08
  | .inc _ => 0x09
  | .dec _ => 0x0A
  | .and _ _ _ => 0x0B
  | .not _ => 0x0C
  | .or _ _ _ => 0x0D
  | .xor _ _ _ => 0x0E
  | .cmp _ _ _ => 0x0F
  | .jump _ => 0x10
  | .jumpIfNz _ _ => 0x11
  | .jumpIfZ _ _ => 0x12
  | .loop _ _ => 0x13
  | .trap _ _ => 0x14
  | .print _ => 0x15

/-- The operand bytes of an instruction, in the order of its format (R62). -/
def Instr.operandBytes : Instr → List Byte
  | .halt => []
  | .load r v | .loadAddr r v | .storeAddr r v => regByte r :: immBytes v
  | .inc r | .dec r | .not r | .jump r | .print r => [regByte r]
  | .move r1 r2 | .jumpIfNz r1 r2 | .jumpIfZ r1 r2 | .loop r1 r2 | .trap r1 r2 => [regByte r1, regByte r2]
  | .add r1 r2 r3 | .sub r1 r2 r3 | .mul r1 r2 r3 | .div r1 r2 r3 | .and r1 r2 r3 | .or r1 r2 r3 | .xor r1 r2 r3
  | .cmp r1 r2 r3 => [regByte r1, regByte r2, regByte r3]

/-- The bytes of an instruction, lowest address first (R60). -/
def encode (i : Instr) : List Byte := i.opcode :: i.operandBytes

/-- The format of an instruction (R62, R65). -/
def Instr.format : Instr → Format
  | .halt => .n
  | .load _ _ | .loadAddr _ _ | .storeAddr _ _ => .ri
  | .inc _ | .dec _ | .not _ | .jump _ | .print _ => .r
  | .move _ _ | .jumpIfNz _ _ | .jumpIfZ _ _ | .loop _ _ | .trap _ _ => .rr
  | .add _ _ _ | .sub _ _ _ | .mul _ _ _ | .div _ _ _ | .and _ _ _ | .or _ _ _ | .xor _ _ _ | .cmp _ _ _ => .rrr

/-- The length of an instruction in bytes, `1 + operand_bytes(op)` (R60). -/
def Instr.length (i : Instr) : Nat := i.format.length

/-! ### Program images (R68) -/

/-- The image of a sequence of instructions: their bytes, packed (R60, R68). -/
def encodeProgram (p : List Instr) : List Byte := p.flatMap encode

/-- The instructions of an image of at most `n` instructions, read one after the other (R68, R69). -/
def decodeProgram : Nat → List Byte → Option (List Instr)
  | _, [] => some []
  | 0, _ :: _ => none
  | n + 1, b :: bs =>
    match decode (b :: bs) with
    | .ok (i, rest) => (decodeProgram n rest).map (i :: ·)
    | .error _ => none

/-! ### The opcode table's numbering of bits -/

/-- The length of the longest instruction (R60). -/
def maxLength : Nat := 10

/-- The bytes of an instruction numbered as spec/opcode_table.json numbers its bits, `nbits` of them, followed by
zero bytes up to the longest instruction (R62: byte `Bk` is bits `8k+7:8k`). -/
def tableBytes (nbits w : Nat) : List Byte := leBytes maxLength (w % 2 ^ nbits)

/-- The instruction the decoder reads from a row's word. -/
def decodeTableWord (nbits w : Nat) : Option Instr :=
  match decode (tableBytes nbits w) with
  | .ok (i, _) => some i
  | .error _ => none

end Sys2Proof
end

