-- ==== Sys2Proof/Machine/State.lean ====
section
/-! DEFINITION. Machine/State.lean: every piece of state the spec gives the core (10_state.md R35), the reasons a
step can stop, and the state after reset. -/

namespace Sys2Proof.Machine

/-- The three states of the status register (R26). -/
inductive Status where
  | running
  | halted
  | faulted
  deriving DecidableEq, Repr

/-- The fault record: the kind of a fault and its context (R27). `position` is the opcode address of the faulting
instruction (D7). These are the core's own faults, whose entry the spec describes (R208): a step that raises one
answers a NEXT state that holds it. -/
inductive FaultRecord where
  | unknownOpcode (opcode : Byte) (position : Word)
  | truncatedInstruction (opcode : Byte) (position : Word)
  | outOfBoundsAccess (addr position : Word)
  | divisionByZero (position : Word)
  deriving DecidableEq, Repr

/-- An output event (R13, R33). -/
inductive OutEvent where
  /-- `Byte(b)`, from PUTC (R181) -/
  | byte (b : Byte)
  /-- `Dec(v)`, from PRINT (R184) -/
  | dec (v : Word)
  deriving DecidableEq, Repr

/-- An entry of the diagnostic log: `UnknownTrap(number, position)` (R33, R183, D16). -/
structure DiagEntry where
  number : Word
  position : Word
  deriving DecidableEq, Repr

/-- Memory as plain data: the listed bytes, in the canonical form `Memory.wf` (Machine/Ops.lean). A byte that is
not listed reads as 0 (R28). -/
abbrev Memory := List Host.Cell

/-- The state of the core (R35), and, as the model's own fields, what the host has ready on the IN interface. -/
structure State where
  /-- `x[0]` to `x[7]` (R20) -/
  regs : Vector Word 8
  /-- the program counter (R24) -/
  pc : Word
  /-- the status register (R26) -/
  status : Status
  /-- the fault record, empty while status is Running or Halted (R27) -/
  fault : Option FaultRecord
  /-- `M[0..memory_size)` (R28) -/
  mem : Memory
  /-- `code_size`, a constant of the run (R29) -/
  codeSize : Nat
  /-- `memory_size`, a constant of the run (R30) -/
  memSize : Nat
  /-- the OUT stream, oldest event first (R33) -/
  out : List OutEvent
  /-- the diagnostic log, oldest entry first (R33) -/
  diag : List DiagEntry
  /-- whether a GETC is waiting for input (R34) -/
  getcWait : Bool
  /-- MODEL's own: the bytes the host has ready on IN, the next one first (R33, R182; log entry 7) -/
  input : List Byte
  /-- MODEL's own: IN has reported end of input or a failed read (R182; log entry 7), which is not final (log entry
  18) -/
  inputEnded : Bool
  deriving DecidableEq, Repr

/-- The reasons for which the model itself stops. The core's four faults are not among them: see `FaultRecord`. -/
inductive Fault where
  /-- Raised by the instruction fetch (`step`) where `pc < code_size` and yet `pc >= memory_size`, so that the
  opcode byte does not exist. The spec rules this out, `code_size <= memory_size` (R29, R82); no constructed state
  reaches it. SAFE: the model stops. Log entry 12. -/
  | fetchOutsideMemory
  deriving DecidableEq, Repr

/-- The refusals. No instruction of this core is refused. -/
inductive Refusal where
  /-- Raised by an arm of `exec` for an instruction that has no meaning yet; no arm raises it now. SAFE. -/
  | notModelled (mnemonic : String)
  deriving DecidableEq, Repr

/-- The core as it stands before LOAD has given it an image: every part at the value R231 states, with no program
(`code_size = 0`, nothing listed in memory; log entry 1) and with the capacity log entry 2 names. The state after
the construction of R230, with an image and a capacity, is `State.construct` (Machine/HostOps.lean). -/
def State.reset : State where
  regs := Vector.replicate 8 0
  pc := 0
  status := .running
  fault := none
  mem := []
  codeSize := 0
  memSize := 2 ^ 64 - 1
  out := []
  diag := []
  getcWait := false
  input := []
  inputEnded := false

end Sys2Proof.Machine
end

