-- ==== Sys2Proof/Machine/Ops.lean ====
section
/-! DEFINITION. Machine/Ops.lean: the named operations over memory, registers, the program counter, the status
register and the output streams (00_scope.md R8 to R10), fault entry among them (60_exceptions.md R208). -/

namespace Sys2Proof.Machine

open Sys2Proof

/-! ### Memory (20_memory.md) -/

/-- What an address that is not listed reads as: 0, the reset contents of scratch memory (R28, R231). -/
def unlistedByte : Byte := 0

/-- The canonical form: addresses strictly rising, no entry equal to what an unlisted address reads as. -/
abbrev Memory.wf (m : Memory) : Prop :=
  m.Pairwise (fun c d => c.1 < d.1) ∧ ∀ c ∈ m, c.2 ≠ unlistedByte

/-- `M[a]` (R8). -/
def Memory.read : Memory → Nat → Byte
  | [], _ => unlistedByte
  | c :: m, a => if c.1 = a then c.2 else Memory.read m a

/-- `M[a] <- b` (R8), keeping the canonical form. -/
def Memory.write : Memory → Nat → Byte → Memory
  | [], a, b => if b = unlistedByte then [] else [(a, b)]
  | c :: m, a, b =>
    if a < c.1 then (if b = unlistedByte then c :: m else (a, b) :: c :: m)
    else if a = c.1 then (if b = unlistedByte then m else (a, b) :: m)
    else c :: Memory.write m a b

/-- Consecutive bytes written from address `a` up. -/
def Memory.writeBytes : Memory → Nat → List Byte → Memory
  | m, _, [] => m
  | m, a, b :: bs => Memory.writeBytes (m.write a b) (a + 1) bs

/-- The `n` consecutive bytes from address `a` up. -/
def Memory.readBytes : Memory → Nat → Nat → List Byte
  | _, _, 0 => []
  | m, a, n + 1 => m.read a :: Memory.readBytes m (a + 1) n

/-- `LE64(a)` (R9, R43). -/
def Memory.read64 (m : Memory) (a : Nat) : Word := imm64 (m.readBytes a 8)

/-- `M[a+k] <- v[8k+7:8k]` for `k` in 0..7 (R9, R43). -/
def Memory.write64 (m : Memory) (a : Nat) (v : Word) : Memory := m.writeBytes a (immBytes v)

/-- One byte of the core's memory (R8). -/
def State.readByte (s : State) (a : Nat) : Byte := s.mem.read a

/-! ### Registers (10_state.md R20 to R23) -/

/-- `x[i]` (R8). -/
def State.reg (s : State) (i : RegIx) : Word := s.regs[i]

/-- `x[i] <- v` (R8). No register is hardwired (R21). -/
def State.setReg (s : State) (i : RegIx) (v : Word) : State := { s with regs := s.regs.set i v }

/-! ### Program counter (R24, R25) -/

/-- The sequential advance past `n` bytes (R25, R85). -/
def State.advance (s : State) (n : Nat) : State := { s with pc := s.pc + BitVec.ofNat 64 n }

/-- `pc` moved past a whole instruction of format `f`: what the decode of R85 leaves a handler (R86). -/
def State.past (s : State) (f : Format) : State := s.advance f.length

/-- `pc <- target`, unchecked (R25, R165). -/
def State.jumpTo (s : State) (target : Word) : State := { s with pc := target }

/-! ### Status register and fault entry (R26, R27, R208) -/

/-- `halt`: status becomes Halted (R10). -/
def State.halt (s : State) : State := { s with status := .halted }

/-- FAULT ENTRY, `raise` (R10, R208): status becomes Faulted and the fault record is written, nothing else. There
is no return from a fault (R210). -/
def State.raise (s : State) (f : FaultRecord) : State := { s with status := .faulted, fault := some f }

/-- The 2-bit code of the status register (R26, D8). -/
def Status.code : Status → BitVec 2
  | .running => 0
  | .halted => 1
  | .faulted => 2

/-- The code of a fault kind (R200, D8). -/
def FaultRecord.code : FaultRecord → Nat
  | .unknownOpcode _ _ => 1
  | .truncatedInstruction _ _ => 2
  | .outOfBoundsAccess _ _ => 3
  | .divisionByZero _ => 4

/-! ### Output, diagnostics, input (R10, R33, R34) -/

/-- `emit(e)` (R10). -/
def State.emit (s : State) (e : OutEvent) : State := { s with out := s.out ++ [e] }

/-- `diag(e)` (R10, D16). -/
def State.logDiag (s : State) (e : DiagEntry) : State := { s with diag := s.diag ++ [e] }

/-- The GETC wait (R34, R182): nothing visible changes, the Step stays in progress. Log entry 6. -/
def State.wait (s : State) : State := { s with getcWait := true }

/-- The end of a GETC wait. -/
def State.wake (s : State) : State := { s with getcWait := false }

/-! ### Instruction fetch (40_step.md R80 to R85) -/

/-- The bytes the decoder may look at: those from `pc` up that lie below `memory_size`, at most as many as the
longest instruction has. Fewer than the opcode asks for is exactly `pc0 + 1 + operand_bytes(op) > memory_size`
(R84). -/
def State.fetchWindow (s : State) : List Byte :=
  s.mem.readBytes s.pc.toNat (min maxLength (s.memSize - s.pc.toNat))

/-- What a Step finds before it dispatches (R80, R207). -/
inductive Fetched where
  /-- status is not Running: no Step is performed (R88) -/
  | stopped
  /-- `pc >= code_size` (R81) -/
  | endOfProgram
  /-- no byte at `pc` though `pc < code_size`: see `Fault.fetchOutsideMemory` -/
  | noByte
  /-- R83 -/
  | unknownOpcode (op : Byte)
  /-- R84 -/
  | truncated (op : Byte)
  /-- R85, R86 -/
  | instr (i : Instr)
  deriving DecidableEq, Repr

/-- The checks of a Step in the order of R207, with the decoded instruction at the end. -/
def State.fetch (s : State) : Fetched :=
  match s.status with
  | .halted | .faulted => .stopped
  | .running =>
    if s.codeSize ≤ s.pc.toNat then .endOfProgram
    else
      match decode s.fetchWindow with
      | .ok (i, _) => .instr i
      | .error .noByte => .noByte
      | .error (.unknownOpcode op) => .unknownOpcode op
      | .error (.truncated op) => .truncated op

/-- A Step requested while status is Halted or Faulted: none is performed, all state stays (R88). Log entry 4. -/
def State.stayStopped (s : State) : Host.Outcome State Fault Refusal := .next s

/-- The end of the program: Halted, `pc` unchanged (R81). -/
def State.endProgram (s : State) : Host.Outcome State Fault Refusal := .next s.halt

/-- No opcode byte exists at `pc` (log entry 12). -/
def State.fetchOutside (_ : State) : Host.Outcome State Fault Refusal := .fault .fetchOutsideMemory

/-- UnknownOpcode, with `pc` past the opcode byte (R83, R91). -/
def State.raiseUnknownOpcode (s : State) (op : Byte) : Host.Outcome State Fault Refusal :=
  .next ((s.advance 1).raise (.unknownOpcode op s.pc))

/-- TruncatedInstruction, with `pc` past the opcode byte (R84, R91). -/
def State.raiseTruncated (s : State) (op : Byte) : Host.Outcome State Fault Refusal :=
  .next ((s.advance 1).raise (.truncatedInstruction op s.pc))

end Sys2Proof.Machine
end

