-- ==== Sys2Proof/Machine/Arithmetic.lean ====
section
/-! DEFINITION. Machine/Arithmetic.lean: ADD, SUB, MUL, DIV, INC, DEC (42_arithmetic.md). -/

namespace Sys2Proof.Machine

open Sys2Proof Host

/-- ADD (R120). -/
def execAdd (rd ra rb : RegIx) (s : State) : Outcome State Fault Refusal :=
  .next ((s.past .rrr).setReg rd (aluAdd (s.reg ra) (s.reg rb)))

/-- SUB (R121). -/
def execSub (rd ra rb : RegIx) (s : State) : Outcome State Fault Refusal :=
  .next ((s.past .rrr).setReg rd (aluSub (s.reg ra) (s.reg rb)))

/-- MUL (R122). -/
def execMul (rd ra rb : RegIx) (s : State) : Outcome State Fault Refusal :=
  .next ((s.past .rrr).setReg rd (aluMul (s.reg ra) (s.reg rb)))

/-- DIV (R123). The divisor is tested before anything is written. -/
def execDiv (rd ra rb : RegIx) (s : State) : Outcome State Fault Refusal :=
  if isZero (s.reg rb) then .next ((s.past .rrr).raise (.divisionByZero s.pc))
  else .next ((s.past .rrr).setReg rd (aluDiv (s.reg ra) (s.reg rb)))

/-- INC (R124, D12). -/
def execInc (rd : RegIx) (s : State) : Outcome State Fault Refusal :=
  .next ((s.past .r).setReg rd (aluAdd (s.reg rd) 1))

/-- DEC (R125, D12). -/
def execDec (rd : RegIx) (s : State) : Outcome State Fault Refusal :=
  .next ((s.past .r).setReg rd (aluSub (s.reg rd) 1))

end Sys2Proof.Machine
end

