-- ==== Sys2Proof/Machine/Control.lean ====
section
/-! DEFINITION. Machine/Control.lean: HALT, JUMP, JUMP_IF_NZ, JUMP_IF_Z, LOOP (44_control.md). A target is the full
64-bit value of a register, not checked when it is written (R165). -/

namespace Sys2Proof.Machine

open Sys2Proof Host

/-- HALT (R160). -/
def execHalt (s : State) : Outcome State Fault Refusal := .next (s.past .n).halt

/-- JUMP (R161). -/
def execJump (rt : RegIx) (s : State) : Outcome State Fault Refusal := .next ((s.past .r).jumpTo (s.reg rt))

/-- JUMP_IF_NZ (R162). -/
def execJumpIfNz (rc rt : RegIx) (s : State) : Outcome State Fault Refusal :=
  if isZero (s.reg rc) then .next (s.past .rr) else .next ((s.past .rr).jumpTo (s.reg rt))

/-- JUMP_IF_Z (R163). -/
def execJumpIfZ (rc rt : RegIx) (s : State) : Outcome State Fault Refusal :=
  if isZero (s.reg rc) then .next ((s.past .rr).jumpTo (s.reg rt)) else .next (s.past .rr)

/-- The counter of LOOP decremented (R164). -/
def State.countDown (s : State) (rc : RegIx) : State := s.setReg rc (aluSub (s.reg rc) 1)

/-- LOOP (R164). The target is read after the decrement (D11). -/
def execLoop (rc rt : RegIx) (s : State) : Outcome State Fault Refusal :=
  if isZero (s.reg rc) then .next (s.past .rr)
  else .next (((s.past .rr).countDown rc).jumpTo ((s.countDown rc).reg rt))

end Sys2Proof.Machine
end

