-- ==== Sys2Proof/Machine/Operands.lean ====
section
/-! DEFINITION. Machine/Operands.lean: the operand forms of the handlers. A register operand is a `RegIx`, read by
`State.reg`; an immediate is the word itself; an address is absolute (41_data_transfer.md R99). -/

namespace Sys2Proof.Machine

open Sys2Proof

/-- The effective address of LOAD_ADDR and STORE_ADDR: the 64-bit immediate, absolute, no base, index, offset or
scaling (R99). -/
def effectiveAddress (addr : Word) : Nat := addr.toNat

/-- The width of every data access in bytes (R48). -/
def accessBytes : Nat := 8

/-- `addr + 8 <= memory_size`, the sum on unbounded naturals (R45, D5). -/
def State.inBounds (s : State) (addr : Word) : Bool := decide (effectiveAddress addr + accessBytes ≤ s.memSize)

/-- The word at an effective address (R9 `MemRead`, after its check). -/
def State.loadWord (s : State) (addr : Word) : Word := s.mem.read64 (effectiveAddress addr)

/-- The word stored at an effective address (R9 `MemWrite`, after its check). -/
def State.storeWord (s : State) (addr : Word) (v : Word) : State :=
  { s with mem := s.mem.write64 (effectiveAddress addr) v }

end Sys2Proof.Machine
end

