-- ==== Sys2Proof/Machine/DataTransfer.lean ====
section
/-! DEFINITION. Machine/DataTransfer.lean: LOAD, LOAD_ADDR, STORE_ADDR, MOVE (41_data_transfer.md). Every meaning of
this and the other family files is called with `pc` at the opcode address `pc0` and moves it past the instruction
itself, as the decode of 40_step.md R85 does, before its handler acts (log entry 10). -/

namespace Sys2Proof.Machine

open Sys2Proof Host

/-- LOAD (R100). -/
def execLoad (rd : RegIx) (imm : Word) (s : State) : Outcome State Fault Refusal :=
  .next ((s.past .ri).setReg rd imm)

/-- LOAD_ADDR (R101). -/
def execLoadAddr (rd : RegIx) (addr : Word) (s : State) : Outcome State Fault Refusal :=
  if s.inBounds addr then .next ((s.past .ri).setReg rd (s.loadWord addr))
  else .next ((s.past .ri).raise (.outOfBoundsAccess addr s.pc))

/-- STORE_ADDR (R102). -/
def execStoreAddr (rs : RegIx) (addr : Word) (s : State) : Outcome State Fault Refusal :=
  if s.inBounds addr then .next ((s.past .ri).storeWord addr (s.reg rs))
  else .next ((s.past .ri).raise (.outOfBoundsAccess addr s.pc))

/-- MOVE (R103). -/
def execMove (rd rs : RegIx) (s : State) : Outcome State Fault Refusal :=
  .next ((s.past .rr).setReg rd (s.reg rs))

end Sys2Proof.Machine
end

