-- ==== Sys2Proof/Machine/Logic.lean ====
section
/-! DEFINITION. Machine/Logic.lean: AND, NOT, OR, XOR, CMP (43_logic_compare.md). -/

namespace Sys2Proof.Machine

open Sys2Proof Host

/-- AND (R140). -/
def execAnd (rd ra rb : RegIx) (s : State) : Outcome State Fault Refusal :=
  .next ((s.past .rrr).setReg rd (aluAnd (s.reg ra) (s.reg rb)))

/-- NOT (R141): logical, in place. -/
def execNot (rd : RegIx) (s : State) : Outcome State Fault Refusal :=
  .next ((s.past .r).setReg rd (aluNot (s.reg rd)))

/-- OR (R142). -/
def execOr (rd ra rb : RegIx) (s : State) : Outcome State Fault Refusal :=
  .next ((s.past .rrr).setReg rd (aluOr (s.reg ra) (s.reg rb)))

/-- XOR (R143). -/
def execXor (rd ra rb : RegIx) (s : State) : Outcome State Fault Refusal :=
  .next ((s.past .rrr).setReg rd (aluXor (s.reg ra) (s.reg rb)))

/-- CMP (R144). -/
def execCmp (rd ra rb : RegIx) (s : State) : Outcome State Fault Refusal :=
  .next ((s.past .rrr).setReg rd (aluCmp (s.reg ra) (s.reg rb)))

end Sys2Proof.Machine
end

