-- ==== Sys2Proof/Config.lean ====
section
/-! DEFINITION. Config.lean: the parameters the spec leaves OPEN (00_scope.md R5) and an implementation fixes.
They have no body: a statement about the model holds for every value of them. MEMORY_SIZE, the third open
parameter, is a constant of a run and stands in State (10_state.md R30). -/

namespace Sys2Proof

/-- What a GETC may do when the input has ended or the read fails (92_eei_decisions.md D15: not in the source).
`hold`, the Step never completes, is the spec's conservative default; the two others are the ways a Step can
complete without an input byte. Log entry 8. -/
inductive GetcEof where
  /-- The Step never completes while no byte comes: the core stays in the GETC wait. A byte that the host delivers
  after all completes it (DESIGN CHOICE, log entry 18). -/
  | hold
  /-- The Step completes and the data register keeps its value. -/
  | keep
  /-- The Step completes and the data register receives `v`. -/
  | store (v : Word)
  deriving DecidableEq, Repr, Inhabited

/-- The open parameter GETC_EOF (R5, R182, D15). A free value: log entry 8. -/
opaque Config.getcEof : GetcEof

/-- The open parameter PRINT_SUFFIX: the bytes that follow the digits of a rendered `Dec` event (R5, R185, D14).
A free value: log entry 9. -/
opaque Config.printSuffix : List Byte

end Sys2Proof
end

