-- ==== Sys2Proof/Machine/Trap.lean ====
section
/-! DEFINITION. Machine/Trap.lean: the trap dispatcher and PRINT (45_trap_print.md). TRAP is a system call that
completes within its own Step; it is not an exception (60_exceptions.md R209). -/

namespace Sys2Proof.Machine

open Sys2Proof Host

/-- The trap number of PUTC (R180). -/
def trapPutc : Word := 0

/-- The trap number of GETC (R180). -/
def trapGetc : Word := 1

/-- PUTC: the low 8 bits of the data register are emitted (R181). -/
def putc (rv : RegIx) (s : State) : State := (s.past .rr).emit (.byte ((s.reg rv).setWidth 8))

/-- An input byte as a register receives it, bits 63 to 8 zero (R182 `zext_64`). -/
def inputWord (b : Byte) : Word := b.setWidth 64

/-- A GETC that completes with `v` in the data register. -/
def getcDone (rv : RegIx) (v : Word) (s : State) : State := ((s.past .rr).setReg rv v).wake

/-- A GETC that finds no byte ready and the input ended: the open parameter GETC_EOF decides (R182, D15; log entry 8). -/
def getcAtEnd (eof : GetcEof) (rv : RegIx) (s : State) : State :=
  match eof with
  | .hold => s.wait
  | .keep => (s.past .rr).wake
  | .store v => getcDone rv v s

/-- GETC: one byte from IN, zero-extended, to the data register (R182). While the host has delivered none the Step
holds, with nothing visible changed and `pc` still at its opcode (R34, R90; log entry 6). DESIGN CHOICE, log entry 18:
`input` is looked at before `inputEnded`, so that a byte is taken whether or not the end of the input has been
reported, also by a GETC held under `GetcEof.hold`. -/
def getc (rv : RegIx) (s : State) : State :=
  match s.input with
  | b :: rest => { getcDone rv (inputWord b) s with input := rest }
  | [] => if s.inputEnded then getcAtEnd Config.getcEof rv s else s.wait

/-- An unknown trap number: a diagnostic entry and nothing else (R183, R205, D16). -/
def unknownTrap (n : Word) (s : State) : State := (s.past .rr).logDiag { number := n, position := s.pc }

/-- TRAP: the full 64-bit trap number selects the operation (R180, D13). -/
def execTrap (rn rv : RegIx) (s : State) : Outcome State Fault Refusal :=
  if s.reg rn = trapPutc then .next (putc rv s)
  else if s.reg rn = trapGetc then .next (getc rv s)
  else .next (unknownTrap (s.reg rn) s)

/-- PRINT (R184). -/
def execPrint (rs : RegIx) (s : State) : Outcome State Fault Refusal := .next ((s.past .r).emit (.dec (s.reg rs)))

end Sys2Proof.Machine
end

