-- ==== Sys2Proof/Machine/Dispatch.lean ====
section
/-! DEFINITION. Machine/Dispatch.lean: the handler of each instruction (40_step.md R86). -/

namespace Sys2Proof.Machine

open Sys2Proof

def exec (i : Instr) (s : State) : Host.Outcome State Fault Refusal :=
  match i with
  | .halt => Sys2Proof.Machine.execHalt s
  | .load rd imm => Sys2Proof.Machine.execLoad rd imm s
  | .loadAddr rd addr => Sys2Proof.Machine.execLoadAddr rd addr s
  | .storeAddr rs addr => Sys2Proof.Machine.execStoreAddr rs addr s
  | .move rd rs => Sys2Proof.Machine.execMove rd rs s
  | .add rd ra rb => Sys2Proof.Machine.execAdd rd ra rb s
  | .sub rd ra rb => Sys2Proof.Machine.execSub rd ra rb s
  | .mul rd ra rb => Sys2Proof.Machine.execMul rd ra rb s
  | .div rd ra rb => Sys2Proof.Machine.execDiv rd ra rb s
  | .inc rd => Sys2Proof.Machine.execInc rd s
  | .dec rd => Sys2Proof.Machine.execDec rd s
  | .and rd ra rb => Sys2Proof.Machine.execAnd rd ra rb s
  | .not rd => Sys2Proof.Machine.execNot rd s
  | .or rd ra rb => Sys2Proof.Machine.execOr rd ra rb s
  | .xor rd ra rb => Sys2Proof.Machine.execXor rd ra rb s
  | .cmp rd ra rb => Sys2Proof.Machine.execCmp rd ra rb s
  | .jump rt => Sys2Proof.Machine.execJump rt s
  | .jumpIfNz rc rt => Sys2Proof.Machine.execJumpIfNz rc rt s
  | .jumpIfZ rc rt => Sys2Proof.Machine.execJumpIfZ rc rt s
  | .loop rc rt => Sys2Proof.Machine.execLoop rc rt s
  | .trap rn rv => Sys2Proof.Machine.execTrap rn rv s
  | .print rs => Sys2Proof.Machine.execPrint rs s

end Sys2Proof.Machine
end

