-- ==== Sys2Proof/Machine/Step.lean ====
section
/-! DEFINITION. Machine/Step.lean: one Step (40_step.md R80), and the placing of one instruction where the next
Step fetches. -/

namespace Sys2Proof.Machine

open Sys2Proof

/-- One Step (R80): the checks in the order of R207, then the instruction. -/
def step (s : State) : Host.Outcome State Fault Refusal :=
  match s.fetch with
  | .stopped => s.stayStopped
  | .endOfProgram => s.endProgram
  | .noByte => s.fetchOutside
  | .unknownOpcode op => s.raiseUnknownOpcode op
  | .truncated op => s.raiseTruncated op
  | .instr i => exec i s

/-- `s` with the instruction of bits `w` loaded where the next Step fetches: its bytes, and zero bytes up to the
longest instruction, from `pc` up, `code_size` and `memory_size` raised where they do not reach past it, and the
core Running with no GETC wait. It stands for a LOAD (R230): log entries 1 and 15. -/
def State.withFetchWord (s : State) (nbits w : Nat) : State :=
  { s with
    mem := s.mem.writeBytes s.pc.toNat (tableBytes nbits w)
    codeSize := max s.codeSize (s.pc.toNat + (nbits + 7) / 8)
    memSize := max s.memSize (s.pc.toNat + maxLength)
    status := .running
    fault := none
    getcWait := false }

end Sys2Proof.Machine
end

