-- ==== Sys2Proof/WellFormed.lean ====
section
/-! DEFINITION. WellFormed.lean: what must hold of the things the core is given.

Instructions: 30_encoding.md R67 makes every value of every operand byte legal and R85 reduces a register byte to
an index below 8, so every term of `Instr` is a legal instruction and its types (`RegIx`, `Word`) already carry the
ranges; there is no further check on an instruction. Log entry 13.

The program image and the capacity: the host owes a non-empty image that fits the capacity, and a capacity of at
most 2^64 - 1 (70_reset_and_hazards.md R230, R232; 10_state.md R29, R30). -/

namespace Sys2Proof

/-- `code_size >= 1`: an empty file is a load error (R29, R232). -/
def WellFormed.imageNonEmpty (image : List Byte) : Bool := !image.isEmpty

/-- `code_size <= memory_size` (R29, R230). -/
def WellFormed.imageFits (image : List Byte) (memorySize : Nat) : Bool := decide (image.length ≤ memorySize)

/-- `memory_size <= 2^64 - 1` (R30, D4). -/
def WellFormed.capacityBounded (memorySize : Nat) : Bool := decide (memorySize ≤ 2 ^ 64 - 1)

/-- The whole check on what LOAD is given (R230). The bytes themselves are not checked (R68, R232). -/
def WellFormed.loadable (image : List Byte) (memorySize : Nat) : Bool :=
  WellFormed.imageNonEmpty image && WellFormed.imageFits image memorySize && WellFormed.capacityBounded memorySize

end Sys2Proof
end

