-- ==== Sys2Proof/Machine/HostOps.lean ====
section
/-! DEFINITION. Machine/HostOps.lean: what the host does to the core: LOAD, IN and the rendering of OUT (00_scope.md
R6, 70_reset_and_hazards.md R230 to R232, R237). STEP is `step`; STAT reads the fields of State. -/

namespace Sys2Proof.Machine

open Sys2Proof

/-- LOAD, the construction of the core: every part of the state at the value R231 states. None is the load error
of R232 or a capacity the spec does not allow (R230): then no state exists (R206). -/
def State.construct (image : List Byte) (memorySize : Nat) : Option State :=
  if WellFormed.loadable image memorySize then
    some { State.reset with
      mem := Memory.writeBytes [] 0 image, codeSize := image.length, memSize := memorySize }
  else none

/-- IN: the host has one more byte ready (R182, R237; log entry 7). DESIGN CHOICE, log entry 18: it may be delivered
after the end of the input has been reported, and a GETC then takes it; the end is not final. -/
def State.deliver (s : State) (b : Byte) : State := { s with input := s.input ++ [b] }

/-- IN: the host reports that the input has ended or a read failed (R182, D15; log entry 7). DESIGN CHOICE, log entry
18: bytes already ready stay ready, and a later `State.deliver` still counts. -/
def State.endInput (s : State) : State := { s with inputEnded := true }

/-- The ASCII code of a decimal digit (R185). -/
def digitByte (d : Nat) : Byte := BitVec.ofNat 8 (0x30 + d)

/-- The decimal digits of `v`, most significant first, for a `v` of at most `fuel + 1` digits. -/
def decimalDigits : Nat → Nat → List Nat
  | 0, v => [v % 10]
  | fuel + 1, v => if v < 10 then [v] else decimalDigits fuel (v / 10) ++ [v % 10]

/-- The bytes of a rendered event (R185, D14). A 64-bit value has at most 20 decimal digits. -/
def OutEvent.render : OutEvent → List Byte
  | .byte b => [b]
  | .dec v => (decimalDigits 19 v.toNat).map digitByte ++ Config.printSuffix

/-- OUT as the bytes a host renders (R185). -/
def State.renderOut (s : State) : List Byte := s.out.flatMap OutEvent.render

end Sys2Proof.Machine
end

