-- ==== Sys2Proof/Safety.lean ====
section
/-! DEFINITION. Safety.lean: what claims are stated in: the invariant of the core, the end of a run, and what an
instruction leaves unchanged. -/

namespace Sys2Proof.Safety

open Sys2Proof Machine

/-- A run has ended when status is Halted or Faulted (70_reset_and_hazards.md R238). -/
def Ended (s : State) : Prop := s.status ≠ .running

/-- The core holds in a GETC wait only at a TRAP whose trap register holds the number of GETC (10_state.md R34). -/
def AtGetc (s : State) : Prop := ∃ rn rv, s.fetch = .instr (.trap rn rv) ∧ s.reg rn = trapGetc

/-- The invariant of the core, of every state a construction or the reset leads to. -/
structure Inv (s : State) : Prop where
  /-- memory keeps its canonical form -/
  memWf : s.mem.wf
  /-- no byte at or above `memory_size` is ever written (R45) -/
  memBounded : ∀ c ∈ s.mem, c.1 < s.memSize
  /-- `code_size <= memory_size` (R29) -/
  codeFits : s.codeSize ≤ s.memSize
  /-- `memory_size <= 2^64 - 1` (R30) -/
  capacity : s.memSize ≤ 2 ^ 64 - 1
  /-- the fault record is empty exactly while status is not Faulted (R27) -/
  faultIff : s.status = .faulted ↔ s.fault ≠ none
  /-- a GETC wait stands only at a GETC (R34) -/
  waitAtGetc : s.getcWait = true → AtGetc s

/-- What a run can make of `s`: any number of Steps, and of the host's transactions on IN (`State.deliver`,
`State.endInput`), in any order (70_reset_and_hazards.md R237; log entries 7 and 18). -/
inductive Reaches (s : State) : State → Prop where
  | refl : Reaches s s
  | step {t u : State} (h : Reaches s t) (hs : Machine.step t = .next u) : Reaches s u
  | deliver {t : State} (h : Reaches s t) (b : Byte) : Reaches s (t.deliver b)
  | endInput {t : State} (h : Reaches s t) : Reaches s t.endInput

/-- Everything but the registers, `pc` and memory is as before: the status register and fault record, the constants
of the run, the output and diagnostic streams, the GETC wait and the IN interface. -/
structure SameRest (s t : State) : Prop where
  status : t.status = s.status
  fault : t.fault = s.fault
  codeSize : t.codeSize = s.codeSize
  memSize : t.memSize = s.memSize
  out : t.out = s.out
  diag : t.diag = s.diag
  getcWait : t.getcWait = s.getcWait
  input : t.input = s.input
  inputEnded : t.inputEnded = s.inputEnded

/-- Every byte of memory reads as before. -/
def SameMemory (s t : State) : Prop := ∀ a, t.readByte a = s.readByte a

/-- Every register reads as before. -/
def SameRegs (s t : State) : Prop := ∀ r, t.reg r = s.reg r

/-- Every register but `rd` reads as before. -/
def SameRegsBut (rd : RegIx) (s t : State) : Prop := ∀ r, r ≠ rd → t.reg r = s.reg r

/-- The frame of an instruction that writes register `rd` and no more than that and `pc`. -/
structure OnlyReg (rd : RegIx) (s t : State) : Prop where
  regs : SameRegsBut rd s t
  mem : SameMemory s t
  rest : SameRest s t

/-- The frame of an instruction that writes no more than `pc`. -/
structure OnlyPc (s t : State) : Prop where
  regs : SameRegs s t
  mem : SameMemory s t
  rest : SameRest s t

/-- What the entry of fault `f` leaves (60_exceptions.md R208): Faulted, the record, and registers, memory, output,
diagnostics, input and the constants as before. It says nothing of `pc`. -/
structure FaultEntry (f : FaultRecord) (s t : State) : Prop where
  status : t.status = .faulted
  fault : t.fault = some f
  regs : SameRegs s t
  mem : SameMemory s t
  codeSize : t.codeSize = s.codeSize
  memSize : t.memSize = s.memSize
  out : t.out = s.out
  diag : t.diag = s.diag
  getcWait : t.getcWait = s.getcWait
  input : t.input = s.input
  inputEnded : t.inputEnded = s.inputEnded

/-- Instruction `i` completes at `s`: it writes `v` (as a natural) to register `rd`, moves `pc` past its `n` bytes,
and changes nothing else. -/
def ExecWritesReg (i : Instr) (rd : RegIx) (v n : Nat) (s : State) : Prop :=
  ∃ t, exec i s = .next t ∧ (t.reg rd).toNat = v ∧ t.pc = s.pc + BitVec.ofNat 64 n ∧ OnlyReg rd s t

/-- Instruction `i` completes at `s`: it leaves `pc` at `target` and changes nothing else. -/
def ExecSetsPc (i : Instr) (target : Word) (s : State) : Prop := ∃ t, exec i s = .next t ∧ t.pc = target ∧ OnlyPc s t

/-- Instruction `i` ends at `s` with the entry of fault `f`. -/
def ExecFaults (i : Instr) (f : FaultRecord) (s : State) : Prop := ∃ t, exec i s = .next t ∧ FaultEntry f s t

/-- The value of eight bytes as rule R9 writes it: the sum of byte `k` times `2^(8k)`. -/
def leSum (byte : Nat → Byte) : Nat := ∑ k ∈ Finset.range 8, (byte k).toNat * 2 ^ (8 * k)

/-- A Step may begin and finds an opcode byte: status is Running, `pc` lies in the program, and the program lies in
memory (R81, R82, R29). -/
structure CanFetch (s : State) : Prop where
  running : s.status = .running
  inProgram : s.pc.toNat < s.codeSize
  codeFits : s.codeSize ≤ s.memSize

/-- The opcode byte a Step fetches (R82). -/
def opcodeAt (s : State) : Byte := s.readByte s.pc.toNat

end Sys2Proof.Safety
end

