-- ==== Sys2Proof/Certificates/Slice0/Obligations.lean ====
section
/-! DEFINITION. Certificates/Slice0/Obligations.lean: the statements about the model. -/

open Sys2Proof Sys2Proof.Machine Sys2Proof.Safety

/-! ### Encoding -/

/-- R22: a register-operand byte `b` selects `b mod 8`, its three low bits, as INC shows of its one operand; and no
operand byte is refused: a known opcode with all its operand bytes always decodes, whatever those bytes are. -/
def Obligations.RegisterByteSelectsModuloEight : Prop :=
  (∀ (b : Byte) (rest : List Byte), (reg b).val = b.toNat % 8 ∧ (reg b).val = (b.extractLsb' 0 3).toNat ∧
    decode (0x09 :: b :: rest) = .ok (.inc (reg b), rest)) ∧
  (∀ (op : Byte) (e : Entry) (bs : List Byte), catalog op = some e → e.format.operandBytes ≤ bs.length →
    ∃ i rest, decode (op :: bs) = .ok (i, rest))

/-- 30_encoding.md section 3 (R65), with the formats of R62: what every opcode byte of the catalog decodes to, for
every operand byte. -/
def Obligations.EveryOpcodeDecodesToItsInstruction : Prop :=
  ∀ (b1 b2 b3 : Byte) (imm rest : List Byte), imm.length = 8 →
    decode (0x00 :: rest) = .ok (.halt, rest) ∧
    decode (0x01 :: b1 :: (imm ++ rest)) = .ok (.load (reg b1) (BitVec.ofNat 64 (leSum (imm.getD · 0))), rest) ∧
    decode (0x02 :: b1 :: (imm ++ rest)) = .ok (.loadAddr (reg b1) (BitVec.ofNat 64 (leSum (imm.getD · 0))), rest) ∧
    decode (0x03 :: b1 :: (imm ++ rest)) = .ok (.storeAddr (reg b1) (BitVec.ofNat 64 (leSum (imm.getD · 0))), rest) ∧
    decode (0x04 :: b1 :: b2 :: rest) = .ok (.move (reg b1) (reg b2), rest) ∧
    decode (0x05 :: b1 :: b2 :: b3 :: rest) = .ok (.add (reg b1) (reg b2) (reg b3), rest) ∧
    decode (0x06 :: b1 :: b2 :: b3 :: rest) = .ok (.sub (reg b1) (reg b2) (reg b3), rest) ∧
    decode (0x07 :: b1 :: b2 :: b3 :: rest) = .ok (.mul (reg b1) (reg b2) (reg b3), rest) ∧
    decode (0x08 :: b1 :: b2 :: b3 :: rest) = .ok (.div (reg b1) (reg b2) (reg b3), rest) ∧
    decode (0x09 :: b1 :: rest) = .ok (.inc (reg b1), rest) ∧
    decode (0x0A :: b1 :: rest) = .ok (.dec (reg b1), rest) ∧
    decode (0x0B :: b1 :: b2 :: b3 :: rest) = .ok (.and (reg b1) (reg b2) (reg b3), rest) ∧
    decode (0x0C :: b1 :: rest) = .ok (.not (reg b1), rest) ∧
    decode (0x0D :: b1 :: b2 :: b3 :: rest) = .ok (.or (reg b1) (reg b2) (reg b3), rest) ∧
    decode (0x0E :: b1 :: b2 :: b3 :: rest) = .ok (.xor (reg b1) (reg b2) (reg b3), rest) ∧
    decode (0x0F :: b1 :: b2 :: b3 :: rest) = .ok (.cmp (reg b1) (reg b2) (reg b3), rest) ∧
    decode (0x10 :: b1 :: rest) = .ok (.jump (reg b1), rest) ∧
    decode (0x11 :: b1 :: b2 :: rest) = .ok (.jumpIfNz (reg b1) (reg b2), rest) ∧
    decode (0x12 :: b1 :: b2 :: rest) = .ok (.jumpIfZ (reg b1) (reg b2), rest) ∧
    decode (0x13 :: b1 :: b2 :: rest) = .ok (.loop (reg b1) (reg b2), rest) ∧
    decode (0x14 :: b1 :: b2 :: rest) = .ok (.trap (reg b1) (reg b2), rest) ∧
    decode (0x15 :: b1 :: rest) = .ok (.print (reg b1), rest)

/-- A few words of the spec's own examples decode to the instruction the spec gives (R63, R100, R102, R164, R180). -/
def Obligations.SpecExampleWordsDecode : Prop :=
  decode [0x05, 0x0A, 0x11, 0xFF] = .ok (.add 2 1 7, []) ∧
  decode [0x01, 0x00, 0x88, 0x77, 0x66, 0x55, 0x44, 0x33, 0x22, 0x11] = .ok (.load 0 0x1122334455667788, []) ∧
  decode [0x03, 0x00, 0x64, 0, 0, 0, 0, 0, 0, 0] = .ok (.storeAddr 0 100, []) ∧
  decode [0x13, 0x00, 0x01] = .ok (.loop 0 1, []) ∧
  decode [0x14, 0x00, 0x02] = .ok (.trap 0 2, []) ∧
  decode [0x0C, 0xFF] = .ok (.not 7, []) ∧
  decode [0x16] = .error (.unknownOpcode 0x16) ∧
  decode [0x01, 0x00, 0x01, 0x02] = .error (.truncated 0x01)

/-- R69: decoding is total (at any `pc` below `code_size`, whatever the memory, it yields an instruction,
UnknownOpcode or TruncatedInstruction, and the decoder itself never finds itself without a byte), and encoding then
decoding is the identity, for one instruction followed by any bytes and for a program of instructions. -/
def Obligations.DecodingIsTotalAndInvertsEncoding : Prop :=
  (∀ s : State, CanFetch s →
    (∃ i, s.fetch = .instr i) ∨ (∃ op, s.fetch = .unknownOpcode op) ∨ (∃ op, s.fetch = .truncated op)) ∧
  (∀ (i : Instr) (rest : List Byte), decode (encode i ++ rest) = .ok (i, rest)) ∧
  (∀ p : List Instr, decodeProgram p.length (encodeProgram p) = some p)

/-- 30_encoding.md section 1: the bytes an instruction takes begin with its opcode byte, are 1, 2, 3, 4 or 10 in
number, and their number depends on the opcode byte alone. -/
def Obligations.OpcodeByteAloneFixesTheLength : Prop :=
  ∀ (op : Byte) (bs cs rest rest' : List Byte) (i j : Instr),
    decode (op :: bs) = .ok (i, rest) → decode (op :: cs) = .ok (j, rest') →
      i.opcode = op ∧ i.length ∈ [1, 2, 3, 4, 10] ∧ i.length = j.length ∧
      ∃ pre, op :: bs = pre ++ rest ∧ pre.length = i.length

/-- A row's word in the opcode table's numbering of bits is the instruction's bytes: the decoder reads it back, and
the next Step runs it where `withFetchWord` places it (the model's convention, log entry 15). -/
def Obligations.TableWordsDecodeAndRun : Prop :=
  ∀ (i : Instr) (s : State),
    decodeTableWord (8 * i.length) (leValue (encode i)) = some i ∧
    (s.mem.wf → step (s.withFetchWord (8 * i.length) (leValue (encode i))) =
      exec i (s.withFetchWord (8 * i.length) (leValue (encode i))))

/-! ### The Step -/

/-- A Step runs the instruction its bytes decode to, as `exec` at that state. The step adds nothing around `exec`:
the meanings themselves move `pc` past the instruction's bytes (log entry 10). -/
def Obligations.StepRunsTheDecodedInstruction : Prop :=
  ∀ (s : State) (i : Instr) (rest : List Byte), s.status = .running → s.pc.toNat < s.codeSize →
    decode s.fetchWindow = .ok (i, rest) → step s = exec i s

/-- A Step whose `pc` points at the bytes of an instruction, all below `memory_size`, runs that instruction, though
its operand bytes lie past `code_size` (40_step.md R82, R84, R85; 90_conflicts.md C2). -/
def Obligations.StepRunsTheBytesAtPc : Prop :=
  ∀ (s : State) (i : Instr), s.status = .running → s.pc.toNat < s.codeSize → s.pc.toNat + i.length ≤ s.memSize →
    (∀ k, (h : k < (encode i).length) → s.readByte (s.pc.toNat + k) = (encode i)[k]) → step s = exec i s

/-- R81: at `pc >= code_size` the Step sets status to Halted and changes nothing else; and a Step that makes a Running
core Halted found the end of the program or ran HALT. -/
def Obligations.EndOfProgramHalts : Prop :=
  (∀ s : State, s.status = .running → s.codeSize ≤ s.pc.toNat → step s = .next { s with status := .halted }) ∧
  (∀ s t : State, s.status = .running → step s = .next t → t.status = .halted →
    s.codeSize ≤ s.pc.toNat ∨ s.fetch = .instr .halt)

/-- R207: the checks of a Step in their fixed order, each deciding the Step's end where those before it do not
apply: end of the program, unknown opcode, operands past `memory_size`, and then the instruction, whose handler
faults only as LOAD_ADDR, STORE_ADDR or DIV. -/
def Obligations.StepChecksInFixedOrder : Prop :=
  ∀ s : State, s.status = .running → s.codeSize ≤ s.memSize →
    (s.codeSize ≤ s.pc.toNat → ∃ t, step s = .next t ∧ t.status = .halted ∧ t.fault = s.fault) ∧
    (s.pc.toNat < s.codeSize → 22 ≤ (opcodeAt s).toNat →
      ∃ t p, step s = .next t ∧ FaultEntry (.unknownOpcode (opcodeAt s) p) s t) ∧
    (s.pc.toNat < s.codeSize → (opcodeAt s).toNat < 22 →
      ∃ e, catalog (opcodeAt s) = some e ∧
        (s.memSize < s.pc.toNat + 1 + e.format.operandBytes →
          ∃ t p, step s = .next t ∧ FaultEntry (.truncatedInstruction (opcodeAt s) p) s t) ∧
        (s.pc.toNat + 1 + e.format.operandBytes ≤ s.memSize →
          ∃ i t, i.opcode = opcodeAt s ∧ step s = exec i s ∧ step s = .next t ∧
            (t.status = .faulted → (∃ r a p, (i = .loadAddr r a ∨ i = .storeAddr r a) ∧
              t.fault = some (.outOfBoundsAccess a p)) ∨
              (∃ rd ra rb p, i = .div rd ra rb ∧ t.fault = some (.divisionByZero p)))))

/-- 40_step.md R83, with the position of the spec's decision D7 and the `pc` of its decision D9: an opcode byte of 22
or more raises UnknownOpcode, records the opcode address, leaves `pc` one past it, and changes nothing else. -/
def Obligations.UnknownOpcodeFaults : Prop :=
  ∀ s : State, CanFetch s → 22 ≤ (opcodeAt s).toNat →
    ∃ t, step s = .next t ∧ FaultEntry (.unknownOpcode (opcodeAt s) s.pc) s t ∧ t.pc = s.pc + 1

/-- 40_step.md R84, with the position of D7 and the `pc` of D9: a known opcode whose operand bytes do not all lie
below `memory_size` raises TruncatedInstruction, records the opcode address, leaves `pc` one past it, and changes
nothing else. -/
def Obligations.TruncatedInstructionFaults : Prop :=
  ∀ (s : State) (e : Entry), CanFetch s → catalog (opcodeAt s) = some e →
    s.memSize < s.pc.toNat + 1 + e.format.operandBytes →
      ∃ t, step s = .next t ∧ FaultEntry (.truncatedInstruction (opcodeAt s) s.pc) s t ∧ t.pc = s.pc + 1

/-- 40_step.md R88: once status is Halted or Faulted, any number of requested Steps leaves the whole state as it is
(that `step` then answers the same state is the model's choice, log entry 4). -/
def Obligations.StoppedCoreStaysStopped : Prop :=
  ∀ (s : State) (n : Nat), Ended s → Host.Core.run core n s = .next s

/-- 10_state.md R26: the transitions of the status register are Running to Running, Running to Halted and Running to
Faulted: status changes only out of Running, and the fault record only as status becomes Faulted. -/
def Obligations.StatusChangesOnlyOutOfRunning : Prop :=
  ∀ s t : State, step s = .next t →
    (s.status ≠ .running → t = s) ∧ (t.fault ≠ s.fault → s.status = .running ∧ t.status = .faulted)

/-- The model's own totality: from every state of the invariant `step` answers a next state, never a refusal or a
fault of the model, as no fetch of a Running core is out of range (40_step.md R89, 20_memory.md R47). That it answers
at a Halted or Faulted core, where the spec performs no Step (R88), and at a GETC without input, where the spec's core
has no enabled move (R34, R182, D15), is the model's choice: log entries 4, 6 and 8. -/
def Obligations.EveryStepIsAnswered : Prop := ∀ s : State, Inv s → ∃ t, step s = .next t

/-! ### Reset and construction -/

/-- R23: every register is 0 after reset, and after every construction. -/
def Obligations.RegistersAreZeroAtReset : Prop :=
  (∀ r : RegIx, State.reset.reg r = 0) ∧
  (∀ (image : List Byte) (n : Nat) (s : State), State.construct image n = some s → ∀ r : RegIx, s.reg r = 0)

/-- 70_reset_and_hazards.md R231, every part, for every image and capacity R230 allows (`pc = 0` is the spec's
decision D3). -/
def Obligations.ConstructionGivesTheResetState : Prop :=
  ∀ (image : List Byte) (n : Nat), 1 ≤ image.length → image.length ≤ n → n ≤ 2 ^ 64 - 1 →
    ∃ s, State.construct image n = some s ∧ (∀ r : RegIx, s.reg r = 0) ∧ s.pc = 0 ∧ s.status = .running ∧
      s.fault = none ∧ (∀ a, (h : a < image.length) → s.readByte a = image[a]) ∧
      (∀ a, image.length ≤ a → s.readByte a = 0) ∧ s.codeSize = image.length ∧ s.memSize = n ∧ s.out = [] ∧
      s.diag = [] ∧ s.getcWait = false

/-- 70_reset_and_hazards.md R230, R232: no core exists for an empty image, an image larger than the capacity, or a
capacity above 2^64 - 1. -/
def Obligations.ConstructionRefusesBadLoads : Prop :=
  ∀ (image : List Byte) (n : Nat), State.construct image n = none ↔
    image = [] ∨ n < image.length ∨ 2 ^ 64 - 1 < n

/-! ### Invariants -/

/-- Every Step, and every transaction of the host on IN (`State.deliver`, `State.endInput`; their form is log entry 7),
keeps the invariant: memory canonical and bounded by `memory_size`, the constants of the run ordered, the fault record
present exactly when status is Faulted, a GETC wait only at a GETC. So does every run, in whatever order Steps and
input come. -/
def Obligations.StepKeepsTheInvariant : Prop :=
  (∀ s t : State, Inv s → step s = .next t → Inv t) ∧
  (∀ s : State, Inv s → (∀ b, Inv (s.deliver b)) ∧ Inv s.endInput) ∧
  (∀ s t : State, Inv s → Reaches s t → Inv t)

/-- The invariant holds after reset (of the reset values log entries 1 and 2 choose too) and after every
construction. -/
def Obligations.InvariantHoldsAtReset : Prop :=
  Inv State.reset ∧ ∀ (image : List Byte) (n : Nat) (s : State), State.construct image n = some s → Inv s

/-- 10_state.md R29, R30: no Step changes `code_size` or `memory_size`. -/
def Obligations.CodeAndMemorySizeAreConstant : Prop :=
  ∀ s t : State, step s = .next t → t.codeSize = s.codeSize ∧ t.memSize = s.memSize

/-! ### What only some instructions do -/

/-- 10_state.md R21: an instruction writes no register it does not name, and only those the rule lists write one. -/
def Obligations.OnlyNamedRegistersChange : Prop :=
  ∀ (i : Instr) (s t : State) (r : RegIx), exec i s = .next t → t.reg r ≠ s.reg r →
    (∃ v, i = .load r v) ∨ (∃ a, i = .loadAddr r a) ∨ (∃ x, i = .move r x) ∨ (∃ a b, i = .add r a b) ∨
    (∃ a b, i = .sub r a b) ∨ (∃ a b, i = .mul r a b) ∨ (∃ a b, i = .div r a b) ∨ i = .inc r ∨ i = .dec r ∨
    (∃ a b, i = .and r a b) ∨ i = .not r ∨ (∃ a b, i = .or r a b) ∨ (∃ a b, i = .xor r a b) ∨
    (∃ a b, i = .cmp r a b) ∨ (∃ x, i = .loop r x) ∨ (∃ n, i = .trap n r ∧ s.reg n = 1)

/-- 20_memory.md R45, R48: a Step changes a byte of memory only by a STORE_ADDR whose eight bytes hold it, all of
them below `memory_size`. -/
def Obligations.OnlyStoreAddrChangesMemory : Prop :=
  ∀ (s t : State) (a : Nat), s.mem.wf → step s = .next t → t.readByte a ≠ s.readByte a →
    ∃ rs addr, s.fetch = .instr (.storeAddr rs addr) ∧ effectiveAddress addr ≤ a ∧ a < effectiveAddress addr + 8 ∧
      effectiveAddress addr + 8 ≤ s.memSize

/-- 10_state.md R25: an instruction leaves `pc` past its bytes, or is a taken transfer that leaves it at its target
register's value, or is a GETC that waits and leaves it where it is. Three parts of it are decisions the model
follows or makes: `pc` past the bytes of a LOAD_ADDR, STORE_ADDR or DIV that faults is the spec's D9, the target of
LOOP read after the decrement is its D11 (log entry 3), and the waiting GETC as a next state is log entry 6. -/
def Obligations.OnlyJumpsLeaveTheSequence : Prop :=
  ∀ (i : Instr) (s t : State), exec i s = .next t →
    t.pc = s.pc + BitVec.ofNat 64 i.length ∨
    (∃ rt, i = .jump rt ∧ t.pc = t.reg rt) ∨
    (∃ rc rt, (i = .jumpIfNz rc rt ∨ i = .loop rc rt) ∧ s.reg rc ≠ 0 ∧ t.pc = t.reg rt) ∨
    (∃ rc rt, i = .jumpIfZ rc rt ∧ s.reg rc = 0 ∧ t.pc = t.reg rt) ∨
    (∃ rn rv, i = .trap rn rv ∧ s.reg rn = 1 ∧ t.pc = s.pc ∧ t.getcWait = true)

/-- 10_state.md R25: the sequential advance never wraps: an instruction that is fetched ends at or below
`memory_size`, so that the next-instruction address is a 64-bit number; and where the Step ends in UnknownOpcode or
TruncatedInstruction (R83, R84), so is the address past the opcode byte, to which R82 has advanced `pc`. -/
def Obligations.SequentialAdvanceNeverWraps : Prop :=
  (∀ (s : State) (i : Instr), Inv s → s.fetch = .instr i →
    s.pc.toNat + i.length ≤ s.memSize ∧ (s.pc + BitVec.ofNat 64 i.length).toNat = s.pc.toNat + i.length) ∧
  (∀ (s : State) (op : Byte), Inv s → s.fetch = .unknownOpcode op ∨ s.fetch = .truncated op →
    s.pc.toNat + 1 ≤ s.memSize ∧ (s.pc + 1).toNat = s.pc.toNat + 1)

/-- 45_trap_print.md R185 (one stream is the spec's decision D14): a Step appends to OUT at most one event, and only
as PRINT or PUTC. -/
def Obligations.OnlyPrintAndPutcEmit : Prop :=
  ∀ s t : State, step s = .next t → t.out = s.out ∨
    (∃ rs, s.fetch = .instr (.print rs) ∧ t.out = s.out ++ [.dec (s.reg rs)]) ∨
    (∃ rn rv, s.fetch = .instr (.trap rn rv) ∧ s.reg rn = 0 ∧
      t.out = s.out ++ [.byte ((s.reg rv).extractLsb' 0 8)])

/-- 60_exceptions.md R200, R201, of the instructions alone: an instruction makes a Running core Faulted only as
LOAD_ADDR or STORE_ADDR past `memory_size` (a sum that does not wrap: the spec's decision D5) or as DIV by 0. The two
faults of a Step that reaches no instruction, UnknownOpcode and TruncatedInstruction (R83, R84), are in
`OnlyFourConditionsFault`. -/
def Obligations.OnlyThreeInstructionsFault : Prop :=
  ∀ (i : Instr) (s t : State), s.status = .running → exec i s = .next t → t.status = .faulted →
    (∃ r addr, (i = .loadAddr r addr ∨ i = .storeAddr r addr) ∧ s.memSize < addr.toNat + 8) ∨
    (∃ rd ra rb, i = .div rd ra rb ∧ s.reg rb = 0)

/-- 60_exceptions.md R200: a Step makes a Running core Faulted under exactly four conditions: inside the program, an
opcode byte of 22 or more, operand bytes past `memory_size`, LOAD_ADDR or STORE_ADDR past `memory_size`, and DIV by
0 (that the bounds sums do not wrap is the spec's decision D5). -/
def Obligations.OnlyFourConditionsFault : Prop :=
  ∀ s t : State, s.status = .running → s.codeSize ≤ s.memSize → step s = .next t →
    (t.status = .faulted ↔ s.pc.toNat < s.codeSize ∧
      (22 ≤ (opcodeAt s).toNat ∨
        (∃ e, catalog (opcodeAt s) = some e ∧ s.memSize < s.pc.toNat + 1 + e.format.operandBytes) ∨
        (∃ r addr, (s.fetch = .instr (.loadAddr r addr) ∨ s.fetch = .instr (.storeAddr r addr)) ∧
          s.memSize < addr.toNat + 8) ∨
        (∃ rd ra rb, s.fetch = .instr (.div rd ra rb) ∧ s.reg rb = 0)))

/-- 60_exceptions.md R208, with the position of D7 and the `pc` of D9: a fault is precise. A Step that makes a Running
core Faulted records a fault whose position is the opcode address, changes no register, memory, output or input,
and leaves `pc` one past the opcode byte or past the instruction. -/
def Obligations.FaultsArePrecise : Prop :=
  ∀ s t : State, s.status = .running → step s = .next t → t.status = .faulted →
    ∃ f, FaultEntry f s t ∧
      ((∃ op, f = .unknownOpcode op s.pc ∧ t.pc = s.pc + 1) ∨
        (∃ op, f = .truncatedInstruction op s.pc ∧ t.pc = s.pc + 1) ∨
        (∃ addr, f = .outOfBoundsAccess addr s.pc ∧ t.pc = s.pc + 10) ∨
        (f = .divisionByZero s.pc ∧ t.pc = s.pc + 4))

/-- 92_eei_decisions.md D8 (the spec's own choice of labels): the codes of the status register and of the faults. -/
def Obligations.StatusAndFaultCodes : Prop :=
  Status.running.code = 0 ∧ Status.halted.code = 1 ∧ Status.faulted.code = 2 ∧
  ∀ (op : Byte) (p a : Word), (FaultRecord.unknownOpcode op p).code = 1 ∧
    (FaultRecord.truncatedInstruction op p).code = 2 ∧ (FaultRecord.outOfBoundsAccess a p).code = 3 ∧
    (FaultRecord.divisionByZero p).code = 4

/-! ### Data transfer -/

/-- R100: LOAD is the bytes `01 r1 i0 .. i7`, truncated where fewer follow the opcode, and it writes its immediate to
its register. -/
def Obligations.LoadWritesItsImmediate : Prop :=
  (∀ (r1 : Byte) (bs rest : List Byte), bs.length = 8 → ∃ imm : Word, imm.toNat = leSum (bs.getD · 0) ∧
    decode (0x01 :: r1 :: (bs ++ rest)) = .ok (.load (reg r1) imm, rest)) ∧
  (∀ bs : List Byte, bs.length < 9 → decode (0x01 :: bs) = .error (.truncated 0x01)) ∧
  ∀ (rd : RegIx) (imm : Word) (s : State), ExecWritesReg (.load rd imm) rd imm.toNat 10 s

/-- 41_data_transfer.md R101: LOAD_ADDR is the bytes `02 r1 a0 .. a7`; it writes to its register the little-endian
word at its address where `addr + 8 <= memory_size`, and raises OutOfBoundsAccess otherwise. That the sum does not
wrap is the spec's decision D5, and the recorded position, the opcode address, its decision D7 (log entry 3). -/
def Obligations.LoadAddrReadsTheWordOrFaults : Prop :=
  (∀ (r1 : Byte) (bs rest : List Byte), bs.length = 8 → ∃ addr : Word, addr.toNat = leSum (bs.getD · 0) ∧
    decode (0x02 :: r1 :: (bs ++ rest)) = .ok (.loadAddr (reg r1) addr, rest)) ∧
  ∀ (rd : RegIx) (addr : Word) (s : State),
    (addr.toNat + 8 ≤ s.memSize →
      ExecWritesReg (.loadAddr rd addr) rd (leSum fun k => s.readByte (addr.toNat + k)) 10 s) ∧
    (s.memSize < addr.toNat + 8 → ExecFaults (.loadAddr rd addr) (.outOfBoundsAccess addr s.pc) s)

/-- 41_data_transfer.md R102: STORE_ADDR writes the eight bytes of its register, least significant first, from its
absolute address up, and no other byte of memory, where `addr + 8 <= memory_size`; otherwise it raises
OutOfBoundsAccess and writes no byte. No register changes. The spec's decisions in it (log entry 3): the sum does not
wrap (D5), the recorded position is the opcode address (D7), a faulting store leaves every byte (D10). -/
def Obligations.StoreAddrWritesEightBytesOrFaults : Prop :=
  (∀ (r1 : Byte) (bs rest : List Byte), bs.length = 8 → ∃ addr : Word, addr.toNat = leSum (bs.getD · 0) ∧
    decode (0x03 :: r1 :: (bs ++ rest)) = .ok (.storeAddr (reg r1) addr, rest)) ∧
  ∀ (rs : RegIx) (addr : Word) (s : State), s.mem.wf → effectiveAddress addr = addr.toNat ∧
    (effectiveAddress addr + 8 ≤ s.memSize → ∃ t, exec (.storeAddr rs addr) s = .next t ∧
      (∀ k < 8, t.readByte (effectiveAddress addr + k) = (s.reg rs).extractLsb' (8 * k) 8) ∧
      (∀ a, a < effectiveAddress addr ∨ effectiveAddress addr + 8 ≤ a → t.readByte a = s.readByte a) ∧
      t.pc = s.pc + 10 ∧ SameRegs s t ∧ SameRest s t) ∧
    (s.memSize < effectiveAddress addr + 8 → ExecFaults (.storeAddr rs addr) (.outOfBoundsAccess addr s.pc) s)

/-- R103: MOVE is the bytes `04 r1 r2` and copies one register to another. -/
def Obligations.MoveCopiesItsSource : Prop :=
  (∀ (r1 r2 : Byte) (rest : List Byte), decode (0x04 :: r1 :: r2 :: rest) = .ok (.move (reg r1) (reg r2), rest)) ∧
  ∀ (rd rs : RegIx) (s : State), ExecWritesReg (.move rd rs) rd (s.reg rs).toNat 3 s

/-- R43: byte order is little-endian, for an immediate, for a word read by LOAD_ADDR and for a word written by
STORE_ADDR. -/
def Obligations.ByteOrderIsLittleEndian : Prop :=
  (∀ (op : Byte) (r1 : Byte) (bs rest : List Byte), op ∈ [(0x01 : Byte), 0x02, 0x03] → bs.length = 8 →
    ∃ v : Word, v.toNat = leSum (bs.getD · 0) ∧ (decode (op :: r1 :: (bs ++ rest)) = .ok (.load (reg r1) v, rest) ∨
      decode (op :: r1 :: (bs ++ rest)) = .ok (.loadAddr (reg r1) v, rest) ∨
      decode (op :: r1 :: (bs ++ rest)) = .ok (.storeAddr (reg r1) v, rest))) ∧
  (∀ (m : Memory) (a : Nat), (m.read64 a).toNat = leSum fun k => m.read (a + k)) ∧
  (∀ (r : RegIx) (addr : Word) (s : State), addr.toNat + 8 ≤ s.memSize →
    (∃ t, exec (.loadAddr r addr) s = .next t ∧ t.reg r = s.mem.read64 addr.toNat) ∧
    (s.mem.wf → ∃ t, exec (.storeAddr r addr) s = .next t ∧
      ∀ k < 8, t.readByte (addr.toNat + k) = (s.reg r).extractLsb' (8 * k) 8))

/-- A word stored by STORE_ADDR is the word a LOAD_ADDR of the same address then reads, at any byte address
(20_memory.md R46, R50). -/
def Obligations.LoadAfterStoreReadsTheStoredWord : Prop :=
  ∀ (rs rd : RegIx) (addr : Word) (s : State), s.mem.wf → addr.toNat + 8 ≤ s.memSize →
    ∃ t u, exec (.storeAddr rs addr) s = .next t ∧ exec (.loadAddr rd addr) t = .next u ∧ u.reg rd = s.reg rs

/-- An address within 8 bytes of 2^64 always faults, for every capacity: the bounds check does not wrap (the spec's
decision D5). The recorded position, the opcode address, is the spec's decision D7 (log entry 3). -/
def Obligations.TopAddressesAlwaysFault : Prop :=
  ∀ (r : RegIx) (addr : Word) (s : State), s.memSize ≤ 2 ^ 64 - 1 → 2 ^ 64 - 8 ≤ addr.toNat →
    ExecFaults (.loadAddr r addr) (.outOfBoundsAccess addr s.pc) s ∧
    ExecFaults (.storeAddr r addr) (.outOfBoundsAccess addr s.pc) s

/-- 20_memory.md R53: a STORE_ADDR over the next instruction is seen by the next fetch: its first stored byte is the
opcode byte of the next Step, and where that byte is 0 the next Step runs HALT. -/
def Obligations.StoreIsSeenByTheNextFetch : Prop :=
  ∀ (rs : RegIx) (addr : Word) (s : State), Inv s → s.status = .running → addr = s.pc + 10 →
    addr.toNat < s.codeSize → addr.toNat + 8 ≤ s.memSize →
    ∃ t, exec (.storeAddr rs addr) s = .next t ∧ opcodeAt t = (s.reg rs).extractLsb' 0 8 ∧
      ((s.reg rs).extractLsb' 0 8 = 0 → step t = .next { t with pc := t.pc + 1, status := .halted })

/-! ### Arithmetic -/

/-- R120, R121, R122: ADD, SUB and MUL are `op r1 r2 r3` with opcodes 5, 6 and 7 and write the exact result reduced
modulo 2^64; the sources are read before the destination is written. -/
def Obligations.AddSubMulWrap : Prop :=
  (∀ (r1 r2 r3 : Byte) (rest : List Byte),
    decode (0x05 :: r1 :: r2 :: r3 :: rest) = .ok (.add (reg r1) (reg r2) (reg r3), rest) ∧
    decode (0x06 :: r1 :: r2 :: r3 :: rest) = .ok (.sub (reg r1) (reg r2) (reg r3), rest) ∧
    decode (0x07 :: r1 :: r2 :: r3 :: rest) = .ok (.mul (reg r1) (reg r2) (reg r3), rest)) ∧
  ∀ (rd ra rb : RegIx) (s : State),
    ExecWritesReg (.add rd ra rb) rd (((s.reg ra).toNat + (s.reg rb).toNat) % 2 ^ 64) 4 s ∧
    ExecWritesReg (.sub rd ra rb) rd ((((s.reg ra).toNat : Int) - (s.reg rb).toNat) % 2 ^ 64).toNat 4 s ∧
    ExecWritesReg (.mul rd ra rb) rd (((s.reg ra).toNat * (s.reg rb).toNat) % 2 ^ 64) 4 s

/-- 42_arithmetic.md R123: DIV is the bytes `08 r1 r2 r3`; a divisor of 0 raises DivisionByZero and leaves every
register as it was, any other divisor gives the floor of the unsigned quotient. The recorded position, the opcode
address, is the spec's decision D7 (log entry 3). -/
def Obligations.DivDividesOrFaults : Prop :=
  (∀ (r1 r2 r3 : Byte) (rest : List Byte),
    decode (0x08 :: r1 :: r2 :: r3 :: rest) = .ok (.div (reg r1) (reg r2) (reg r3), rest)) ∧
  ∀ (rd ra rb : RegIx) (s : State),
    (s.reg rb = 0 → ExecFaults (.div rd ra rb) (.divisionByZero s.pc) s) ∧
    (s.reg rb ≠ 0 → ExecWritesReg (.div rd ra rb) rd ((s.reg ra).toNat / (s.reg rb).toNat) 4 s)

/-- 42_arithmetic.md R124, R125: INC and DEC add and subtract 1 in place, modulo 2^64 (that they wrap is the spec's
decision D12). -/
def Obligations.IncDecWrap : Prop :=
  ∀ (rd : RegIx) (s : State),
    ExecWritesReg (.inc rd) rd (((s.reg rd).toNat + 1) % 2 ^ 64) 2 s ∧
    ExecWritesReg (.dec rd) rd ((((s.reg rd).toNat : Int) - 1) % 2 ^ 64).toNat 2 s

/-! ### Logic and compare -/

/-- R140, R142, R143: AND, OR and XOR are `op r1 r2 r3` with opcodes 11, 13 and 14 and combine the sources bit by
bit. -/
def Obligations.AndOrXorAreBitwise : Prop :=
  (∀ (r1 r2 r3 : Byte) (rest : List Byte),
    decode (0x0B :: r1 :: r2 :: r3 :: rest) = .ok (.and (reg r1) (reg r2) (reg r3), rest) ∧
    decode (0x0D :: r1 :: r2 :: r3 :: rest) = .ok (.or (reg r1) (reg r2) (reg r3), rest) ∧
    decode (0x0E :: r1 :: r2 :: r3 :: rest) = .ok (.xor (reg r1) (reg r2) (reg r3), rest)) ∧
  ∀ (rd ra rb : RegIx) (s : State),
    (∃ t, exec (.and rd ra rb) s = .next t ∧ t.pc = s.pc + 4 ∧ OnlyReg rd s t ∧
      ∀ k < 64, (t.reg rd).getLsbD k = ((s.reg ra).getLsbD k && (s.reg rb).getLsbD k)) ∧
    (∃ t, exec (.or rd ra rb) s = .next t ∧ t.pc = s.pc + 4 ∧ OnlyReg rd s t ∧
      ∀ k < 64, (t.reg rd).getLsbD k = ((s.reg ra).getLsbD k || (s.reg rb).getLsbD k)) ∧
    (∃ t, exec (.xor rd ra rb) s = .next t ∧ t.pc = s.pc + 4 ∧ OnlyReg rd s t ∧
      ∀ k < 64, (t.reg rd).getLsbD k = ((s.reg ra).getLsbD k ^^ (s.reg rb).getLsbD k))

/-- R141, R144: NOT, `0C r1`, writes 1 if its register is 0 and 0 otherwise, in place; CMP, `0F r1 r2 r3`, writes 1
if its sources are equal and 0 otherwise, and no flag. -/
def Obligations.NotAndCmpWriteOneOrZero : Prop :=
  (∀ (r1 r2 r3 : Byte) (rest : List Byte), decode (0x0C :: r1 :: rest) = .ok (.not (reg r1), rest) ∧
    decode (0x0F :: r1 :: r2 :: r3 :: rest) = .ok (.cmp (reg r1) (reg r2) (reg r3), rest)) ∧
  ∀ (rd ra rb : RegIx) (s : State),
    ExecWritesReg (.not rd) rd (if s.reg rd = 0 then 1 else 0) 2 s ∧
    ExecWritesReg (.cmp rd ra rb) rd (if (s.reg ra).toNat = (s.reg rb).toNat then 1 else 0) 4 s

/-! ### Control -/

/-- 44_control.md R160: HALT, the byte `00`, sets status to Halted and changes nothing else; `pc` is past it (the
spec marks that as its inference from R82). -/
def Obligations.HaltStopsCleanly : Prop :=
  (∀ rest : List Byte, decode (0x00 :: rest) = .ok (.halt, rest)) ∧
  ∀ s : State, exec .halt s = .next { s with status := .halted, pc := s.pc + 1 }

/-- R161, R162, R163: JUMP, `10 r1`, JUMP_IF_NZ, `11 r1 r2`, and JUMP_IF_Z, `12 r1 r2`, put the target register's
value into `pc`, the two conditional ones only where the condition register is nonzero, or zero; otherwise `pc` is
past the instruction. Nothing else changes. -/
def Obligations.JumpsSetPcToTheirTarget : Prop :=
  (∀ (r1 r2 : Byte) (rest : List Byte), decode (0x10 :: r1 :: rest) = .ok (.jump (reg r1), rest) ∧
    decode (0x11 :: r1 :: r2 :: rest) = .ok (.jumpIfNz (reg r1) (reg r2), rest) ∧
    decode (0x12 :: r1 :: r2 :: rest) = .ok (.jumpIfZ (reg r1) (reg r2), rest)) ∧
  ∀ (rc rt : RegIx) (s : State),
    ExecSetsPc (.jump rt) (s.reg rt) s ∧
    ExecSetsPc (.jumpIfNz rc rt) (if (s.reg rc).toNat ≠ 0 then s.reg rt else s.pc + 3) s ∧
    ExecSetsPc (.jumpIfZ rc rt) (if (s.reg rc).toNat = 0 then s.reg rt else s.pc + 3) s

/-- 44_control.md R164: LOOP at a zero counter falls through with nothing changed; otherwise it decrements the counter
and puts the target register's value, read after the decrement (the spec's decision D11), into `pc`. -/
def Obligations.LoopCountsDownAndJumps : Prop :=
  ∀ (rc rt : RegIx) (s : State),
    (s.reg rc = 0 → ExecSetsPc (.loop rc rt) (s.pc + 3) s) ∧
    (s.reg rc ≠ 0 → ∃ t, exec (.loop rc rt) s = .next t ∧ (t.reg rc).toNat + 1 = (s.reg rc).toNat ∧
      t.pc = t.reg rt ∧ OnlyReg rc s t)

/-- 44_control.md R165: a control transfer (JUMP, and JUMP_IF_NZ, JUMP_IF_Z and LOOP where taken) to an address at or
past `code_size`, even past `memory_size`, is not a fault: the next Step halts there with nothing else changed, LOOP's
counter apart. That LOOP with one register for both jumps to the decremented counter is the spec's decision D11 (log
entry 3). -/
def Obligations.JumpPastTheProgramHaltsNext : Prop :=
  ∀ (rc rt : RegIx) (s : State), s.status = .running →
    (s.codeSize ≤ (s.reg rt).toNat →
      (∃ t, exec (.jump rt) s = .next t ∧ step t = .next { s with pc := s.reg rt, status := .halted }) ∧
      (s.reg rc ≠ 0 →
        ∃ t, exec (.jumpIfNz rc rt) s = .next t ∧ step t = .next { s with pc := s.reg rt, status := .halted }) ∧
      (s.reg rc = 0 →
        ∃ t, exec (.jumpIfZ rc rt) s = .next t ∧ step t = .next { s with pc := s.reg rt, status := .halted })) ∧
    (s.reg rc ≠ 0 → ∀ target, target = (if rt = rc then s.reg rc - 1 else s.reg rt) → s.codeSize ≤ target.toNat →
      ∃ t, exec (.loop rc rt) s = .next t ∧
        step t = .next { s.setReg rc (s.reg rc - 1) with pc := target, status := .halted })

/-! ### Trap and output -/

/-- R181: PUTC (TRAP, `14 r1 r2`, with trap number 0) appends the low byte of the data register to OUT and changes
nothing but that and `pc`. -/
def Obligations.PutcEmitsTheLowByte : Prop :=
  ∀ (rn rv : RegIx) (s : State), s.reg rn = 0 →
    exec (.trap rn rv) s =
      .next { s with pc := s.pc + 3, out := s.out ++ [.byte ((s.reg rv).extractLsb' 0 8)] }

/-- 45_trap_print.md R182: GETC (trap number 1) with a byte on the input takes it, zero-extended, into the data
register; no output event, and nothing else changes but `pc` and the end of the wait. The input as a queue is log
entry 7; that a byte is taken even after the host has reported the end of the input is the model's choice, log entry
18. -/
def Obligations.GetcTakesTheNextByte : Prop :=
  ∀ (rn rv : RegIx) (b : Byte) (rest : List Byte) (s : State), s.reg rn = 1 → s.input = b :: rest →
    ∃ t, exec (.trap rn rv) s = .next t ∧ (t.reg rv).toNat = b.toNat ∧ SameRegsBut rv s t ∧ t.input = rest ∧
      t = { s with regs := t.regs, pc := s.pc + 3, input := rest, getcWait := false }

/-- 45_trap_print.md R182, D15, with the model's form of the wait (log entry 6) and of GETC_EOF (log entry 8): GETC with
no byte on the input waits, nothing but the wait changed; where the input has ended, the open parameter GETC_EOF
decides between that wait and a completion. -/
def Obligations.GetcWithoutInputWaits : Prop :=
  ∀ (rn rv : RegIx) (s : State), s.reg rn = 1 → s.input = [] →
    (s.inputEnded = false → exec (.trap rn rv) s = .next { s with getcWait := true }) ∧
    (s.inputEnded = true → exec (.trap rn rv) s = .next (match Config.getcEof with
      | .hold => { s with getcWait := true }
      | .keep => { s with pc := s.pc + 3, getcWait := false }
      | .store v => { s.setReg rv v with pc := s.pc + 3, getcWait := false }))

/-- 10_state.md R34, in the model's form of the wait (log entry 6): a core that waits in a GETC stays exactly as it is
for any number of requested Steps while no byte comes, and the Step after a byte is delivered completes the GETC. -/
def Obligations.GetcWaitHoldsUntilDelivery : Prop :=
  ∀ (rn rv : RegIx) (s : State), s.getcWait = true → s.fetch = .instr (.trap rn rv) → s.reg rn = 1 → s.input = [] →
    s.inputEnded = false →
    (∀ n, Host.Core.run core n s = .next s) ∧
    ∀ b, ∃ t, step (s.deliver b) = .next t ∧ (t.reg rv).toNat = b.toNat ∧ t.getcWait = false ∧ t.input = [] ∧
      t.pc = s.pc + 3

/-- 45_trap_print.md R183, with the full-width trap number of D13 and the log entry of D16: a trap number of 2 or more
changes nothing but `pc` and the diagnostic log. -/
def Obligations.UnknownTrapIsANoOp : Prop :=
  ∀ (rn rv : RegIx) (s : State), 2 ≤ (s.reg rn).toNat →
    exec (.trap rn rv) s =
      .next { s with pc := s.pc + 3, diag := s.diag ++ [{ number := s.reg rn, position := s.pc }] }

/-- R184: PRINT, `15 r1`, appends the full unsigned value of its register to OUT as a decimal event and changes nothing
but that and `pc`. -/
def Obligations.PrintEmitsTheDecimalValue : Prop :=
  (∀ (r1 : Byte) (rest : List Byte), decode (0x15 :: r1 :: rest) = .ok (.print (reg r1), rest)) ∧
  ∀ (rs : RegIx) (s : State),
    exec (.print rs) s = .next { s with pc := s.pc + 2, out := s.out ++ [.dec (s.reg rs)] }

/-- 45_trap_print.md R185 (D14; the ASCII codes are the spec's general knowledge): `Byte(b)` renders as `b`; `Dec(v)`
renders as decimal digits, most significant first, whose value is `v`, with no leading zero, followed by
PRINT_SUFFIX; and OUT renders event by event. -/
def Obligations.DecRendersAsDecimalDigits : Prop :=
  (∀ b : Byte, (OutEvent.byte b).render = [b]) ∧
  (∀ v : Word, ∃ ds : List Nat, (OutEvent.dec v).render = ds.map (fun d => BitVec.ofNat 8 (0x30 + d)) ++ Config.printSuffix ∧
    (∀ d ∈ ds, d < 10) ∧ ds.foldl (fun n d => 10 * n + d) 0 = v.toNat ∧ ds ≠ [] ∧ (ds.head? = some 0 → ds = [0])) ∧
  (∀ (s : State) (e : OutEvent), (s.emit e).renderOut = s.renderOut ++ e.render)

/-- 92_eei_decisions.md D16: the diagnostic log is not architectural: no Step reads it. Replacing it changes nothing of
a Step but the log itself, to which the Step appends the same entries. -/
def Obligations.DiagnosticLogIsNeverRead : Prop :=
  ∀ (s t : State) (d : List DiagEntry), step s = .next t →
    ∃ es, t.diag = s.diag ++ es ∧ step { s with diag := d } = .next { t with diag := d ++ es }
end

