-- ==== Sys2Proof/Laws/Memory.lean ====
section
/-! SUPPORT. Laws/Memory.lean: reads after writes, and the canonical form of memory under every operation. -/

namespace Sys2Proof

open Machine

/-! ### Byte order -/

@[simp] theorem leBytes_length (n v : Nat) : (leBytes n v).length = n := by
  induction n generalizing v with
  | zero => rfl
  | succ n ih => simp [leBytes, ih]

/-- Byte `k` of a value is its bits `8k+7:8k`. -/
theorem leBytes_getElem (n v k : Nat) (h : k < (leBytes n v).length) :
    (leBytes n v)[k] = BitVec.ofNat 8 (v / 256 ^ k) := by
  induction n generalizing v k with
  | zero => simp at h
  | succ n ih =>
    cases k with
    | zero => simp [leBytes]
    | succ k => simp [leBytes, ih, Nat.pow_succ, Nat.div_div_eq_div_mul, Nat.mul_comm]

/-- The bytes of a value give back the value, as far as they reach. -/
theorem leValue_leBytes (n v : Nat) : leValue (leBytes n v) = v % 256 ^ n := by
  induction n generalizing v with
  | zero => simp [leBytes, leValue, Nat.mod_one]
  | succ n ih =>
    have := Nat.mod_mul (a := 256) (b := 256 ^ n) (x := v)
    simp only [leBytes, leValue, ih, BitVec.toNat_ofNat, Nat.pow_succ', this]

theorem leValue_lt (bs : List Byte) : leValue bs < 256 ^ bs.length := by
  induction bs with
  | nil => simp [leValue]
  | cons b bs ih =>
    have := b.isLt
    simp only [leValue, List.length_cons, Nat.pow_succ]
    omega

/-- The value of eight bytes is below 2^64: no narrowing happens in `imm64`. -/
theorem imm64_toNat (bs : List Byte) (h : bs.length = 8) : (imm64 bs).toNat = leValue bs := by
  have := leValue_lt bs
  rw [h] at this
  simp only [imm64, BitVec.toNat_ofNat]
  exact Nat.mod_eq_of_lt this

@[simp] theorem immBytes_length (v : Word) : (immBytes v).length = 8 := leBytes_length 8 _

/-- Encoding an immediate and reading it back gives it back. -/
@[simp] theorem imm64_immBytes (v : Word) : imm64 (immBytes v) = v := by
  apply BitVec.eq_of_toNat_eq
  rw [imm64_toNat _ (immBytes_length v), immBytes, leValue_leBytes]
  exact Nat.mod_eq_of_lt v.isLt

end Sys2Proof

namespace Sys2Proof.Machine

open Sys2Proof

/-! ### One byte -/

@[simp] theorem Memory.read_nil (a : Nat) : Memory.read [] a = unlistedByte := rfl

theorem Memory.wf_nil : Memory.wf [] := ⟨List.Pairwise.nil, fun _ h => by cases h⟩

/-- An address below every listed one is not listed. -/
theorem Memory.read_of_lt_all {m : Memory} {a : Nat} (h : ∀ c ∈ m, a < c.1) : m.read a = unlistedByte := by
  induction m with
  | nil => rfl
  | cons c m ih =>
    have hc : c.1 ≠ a := Nat.ne_of_gt (h c (by simp))
    simp only [Memory.read, hc, if_false]
    exact ih fun d hd => h d (by simp [hd])

/-- A read after a write: the written byte at its address, every other byte as before. -/
theorem Memory.read_write {m : Memory} (hm : m.wf) (a b : Nat) (v : Byte) :
    (m.write a v).read b = if b = a then v else m.read b := by
  induction m with
  | nil =>
    by_cases hv : v = unlistedByte <;> by_cases hb : b = a
    · simp [Memory.write, Memory.read, hv]
    · simp [Memory.write, Memory.read, hv]
    · simp [Memory.write, Memory.read, hv, hb]
    · simp [Memory.write, Memory.read, hv, hb, Ne.symm hb]
  | cons c m ih =>
    obtain ⟨hp, hz⟩ := hm
    rw [List.pairwise_cons] at hp
    have ih := ih ⟨hp.2, fun d hd => hz d (by simp [hd])⟩
    have above : ∀ x, x ≤ c.1 → Memory.read m x = unlistedByte := fun x hx =>
      Memory.read_of_lt_all fun d hd => Nat.lt_of_le_of_lt hx (hp.1 d hd)
    unfold Memory.write
    split
    · next hlt =>
      split
      · next hv =>
        subst hv
        by_cases hb : b = a
        · subst hb
          simp only [Memory.read, (Nat.ne_of_gt hlt), if_false, if_true]
          exact above b (Nat.le_of_lt hlt)
        · simp [hb]
      · next hv =>
        by_cases hb : b = a
        · subst hb; simp [Memory.read]
        · simp [Memory.read, hb, Ne.symm hb]
    · next hge =>
      split
      · next heq =>
        subst heq
        split
        · next hv =>
          subst hv
          by_cases hb : b = c.1
          · subst hb; simpa using above c.1 (Nat.le_refl _)
          · simp [Memory.read, hb, Ne.symm hb]
        · next hv =>
          by_cases hb : b = c.1
          · subst hb; simp [Memory.read]
          · simp [Memory.read, hb, Ne.symm hb]
      · next hne =>
        simp only [Memory.read]
        by_cases hb : c.1 = b
        · have : b ≠ a := fun e => hne (e.symm.trans hb.symm)
          simp [hb, this]
        · simp [hb, ih]

/-- Every entry after a write was there before or is the written one. -/
theorem Memory.mem_write {m : Memory} {a : Nat} {v : Byte} {c : Host.Cell} (h : c ∈ m.write a v) :
    c ∈ m ∨ (c = (a, v) ∧ v ≠ unlistedByte) := by
  induction m with
  | nil =>
    unfold Memory.write at h
    split at h <;> simp_all
  | cons d m ih =>
    unfold Memory.write at h
    split at h
    · split at h <;> simp_all
      tauto
    · split at h
      · split at h <;> simp_all
        tauto
      · rcases List.mem_cons.mp h with h | h
        · simp [h]
        · rcases ih h with h | h
          · simp [h]
          · simp [h]

/-- A write keeps the canonical form. -/
theorem Memory.wf_write {m : Memory} (hm : m.wf) (a : Nat) (v : Byte) : (m.write a v).wf := by
  refine ⟨?_, fun c hc => ?_⟩
  · induction m with
    | nil => unfold Memory.write; split <;> simp
    | cons c m ih =>
      obtain ⟨hp, hz⟩ := hm
      have hp' := List.pairwise_cons.mp hp
      have ih := ih ⟨hp'.2, fun d hd => hz d (by simp [hd])⟩
      unfold Memory.write
      split
      · next hlt =>
        split
        · exact hp
        · refine List.pairwise_cons.mpr ⟨fun d hd => ?_, hp⟩
          rcases List.mem_cons.mp hd with hd | hd
          · simpa [hd] using hlt
          · exact Nat.lt_trans hlt (hp'.1 d hd)
      · next hge =>
        split
        · next heq =>
          split
          · exact hp'.2
          · exact List.pairwise_cons.mpr ⟨fun d hd => by simpa [heq] using hp'.1 d hd, hp'.2⟩
        · next hne =>
          refine List.pairwise_cons.mpr ⟨fun d hd => ?_, ih⟩
          rcases Memory.mem_write hd with hd | ⟨hd, -⟩
          · exact hp'.1 d hd
          · subst hd
            show c.1 < a
            omega
  · rcases Memory.mem_write hc with h | ⟨h, hv⟩
    · exact hm.2 c h
    · simpa [h] using hv

/-- Two memories in canonical form that read the same are the same list. -/
theorem Memory.ext_of_wf {m n : Memory} (hm : m.wf) (hn : n.wf) (h : ∀ a, m.read a = n.read a) : m = n := by
  induction m generalizing n with
  | nil =>
    cases n with
    | nil => rfl
    | cons d n =>
      have := h d.1
      simp only [Memory.read, if_true] at this
      exact absurd this.symm (hn.2 d (by simp))
  | cons c m ih =>
    cases n with
    | nil =>
      have := h c.1
      simp only [Memory.read, if_true] at this
      exact absurd this (hm.2 c (by simp))
    | cons d n =>
      have pm := List.pairwise_cons.mp hm.1
      have pn := List.pairwise_cons.mp hn.1
      have hc : c.2 ≠ unlistedByte := hm.2 c (by simp)
      have hd : d.2 ≠ unlistedByte := hn.2 d (by simp)
      have low : ∀ {k : Memory} {e : Host.Cell} {x : Nat}, (∀ f ∈ k, e.1 < f.1) → x ≤ e.1 → k.read x = unlistedByte :=
        fun hk hx => Memory.read_of_lt_all fun f hf => Nat.lt_of_le_of_lt hx (hk f hf)
      have key : c.1 = d.1 := by
        rcases Nat.lt_trichotomy c.1 d.1 with hlt | heq | hgt
        · have := h c.1
          simp only [Memory.read, if_true, (Nat.ne_of_gt hlt), if_false, low pn.1 (Nat.le_of_lt hlt)] at this
          exact absurd this hc
        · exact heq
        · have := h d.1
          simp only [Memory.read, if_true, (Nat.ne_of_gt hgt), if_false, low pm.1 (Nat.le_of_lt hgt)] at this
          exact absurd this.symm hd
      have val : c.2 = d.2 := by
        have := h c.1
        simpa [Memory.read, key] using this
      have rest : m = n := by
        refine ih ⟨pm.2, fun e he => hm.2 e (by simp [he])⟩ ⟨pn.2, fun e he => hn.2 e (by simp [he])⟩ fun a => ?_
        by_cases ha : a ≤ c.1
        · rw [low pm.1 ha, low pn.1 (key ▸ ha)]
        · have := h a
          have h1 : c.1 ≠ a := by omega
          simpa [Memory.read, h1, key ▸ h1] using this
      rw [rest, Prod.ext key val]

/-! ### Several bytes -/

theorem Memory.wf_writeBytes {m : Memory} (hm : m.wf) (a : Nat) (bs : List Byte) : (m.writeBytes a bs).wf := by
  induction bs generalizing m a with
  | nil => exact hm
  | cons b bs ih => exact ih (Memory.wf_write hm a b) (a + 1)

/-- A write of consecutive bytes: the bytes at their addresses, every other byte as before. -/
theorem Memory.read_writeBytes {m : Memory} (hm : m.wf) (a : Nat) (bs : List Byte) (x : Nat) :
    (m.writeBytes a bs).read x = if h : a ≤ x ∧ x - a < bs.length then bs[x - a]'h.2 else m.read x := by
  induction bs generalizing m a with
  | nil => simp [Memory.writeBytes]
  | cons b bs ih =>
    rw [Memory.writeBytes, ih (Memory.wf_write hm a b), Memory.read_write hm]
    by_cases hx : a + 1 ≤ x
    · have e : x - a = (x - (a + 1)) + 1 := by omega
      by_cases hl : x - (a + 1) < bs.length
      · have h2 : a ≤ x ∧ x - a < (b :: bs).length := by simp; omega
        rw [dif_pos ⟨hx, hl⟩, dif_pos h2]
        simp [e]
      · have h2 : ¬ (a ≤ x ∧ x - a < (b :: bs).length) := by simp; omega
        have h3 : x ≠ a := by omega
        rw [dif_neg (fun h => hl h.2), dif_neg h2, if_neg h3]
    · rw [dif_neg (fun h => hx h.1)]
      by_cases hxa : x = a
      · subst hxa; simp
      · have h2 : ¬ (a ≤ x ∧ x - a < (b :: bs).length) := by omega
        rw [if_neg hxa, dif_neg h2]

/-- Every entry after a write of consecutive bytes was there before or lies in the written range. -/
theorem Memory.mem_writeBytes {m : Memory} {a : Nat} {bs : List Byte} {c : Host.Cell} (h : c ∈ m.writeBytes a bs) :
    c ∈ m ∨ (a ≤ c.1 ∧ c.1 < a + bs.length) := by
  induction bs generalizing m a with
  | nil => exact .inl h
  | cons b bs ih =>
    rcases ih h with h | h
    · rcases Memory.mem_write h with h | ⟨rfl, -⟩
      · exact .inl h
      · right; simp
    · right; simp only [List.length_cons]; omega

@[simp] theorem Memory.readBytes_length (m : Memory) (a n : Nat) : (m.readBytes a n).length = n := by
  induction n generalizing a with
  | zero => rfl
  | succ n ih => simp [Memory.readBytes, ih]

@[simp] theorem Memory.readBytes_getElem (m : Memory) (a n k : Nat) (h : k < (m.readBytes a n).length) :
    (m.readBytes a n)[k] = m.read (a + k) := by
  induction n generalizing a k with
  | zero => simp at h
  | succ n ih =>
    cases k with
    | zero => simp [Memory.readBytes]
    | succ k => simp [Memory.readBytes, ih, Nat.add_comm, Nat.add_left_comm]

/-- Bytes read where they were just written are the written ones. -/
theorem Memory.readBytes_writeBytes {m : Memory} (hm : m.wf) (a : Nat) (bs : List Byte) :
    (m.writeBytes a bs).readBytes a bs.length = bs := by
  apply List.ext_getElem
  · simp
  · intro k h1 h2
    rw [Memory.readBytes_getElem, Memory.read_writeBytes hm, dif_pos ⟨by omega, by omega⟩]
    simp

/-! ### Words -/

theorem Memory.wf_write64 {m : Memory} (hm : m.wf) (a : Nat) (v : Word) : (m.write64 a v).wf :=
  Memory.wf_writeBytes hm a _

/-- `LE64(a)` as the sum of rule R9. -/
theorem Memory.read64_toNat (m : Memory) (a : Nat) :
    (m.read64 a).toNat = ∑ k ∈ Finset.range 8, (m.read (a + k)).toNat * 2 ^ (8 * k) := by
  rw [Memory.read64, imm64_toNat _ (Memory.readBytes_length m a 8)]
  simp only [Memory.readBytes, leValue, Finset.sum_range_succ, Finset.sum_range_zero, Nat.add_assoc,
    Nat.reduceAdd, Nat.add_zero]
  omega

/-- The eight bytes a word store leaves, and the rest of memory as it was. -/
theorem Memory.read_write64 {m : Memory} (hm : m.wf) (a : Nat) (v : Word) (x : Nat) :
    (m.write64 a v).read x = if a ≤ x ∧ x < a + 8 then v.extractLsb' (8 * (x - a)) 8 else m.read x := by
  rw [Memory.write64, Memory.read_writeBytes hm]
  by_cases h : a ≤ x ∧ x < a + 8
  · have h' : a ≤ x ∧ x - a < (immBytes v).length := by simp; omega
    rw [dif_pos h', if_pos h]
    apply BitVec.eq_of_toNat_eq
    simp only [immBytes, leBytes_getElem, BitVec.toNat_ofNat, BitVec.extractLsb'_toNat, Nat.shiftRight_eq_div_pow,
      show (256 : Nat) = 2 ^ 8 from rfl, ← Nat.pow_mul]
  · have h' : ¬ (a ≤ x ∧ x - a < (immBytes v).length) := by simp; omega
    rw [dif_neg h', if_neg h]

/-- A word read where it was just stored is the stored word. -/
theorem Memory.read64_write64 {m : Memory} (hm : m.wf) (a : Nat) (v : Word) : (m.write64 a v).read64 a = v := by
  have := Memory.readBytes_writeBytes hm a (immBytes v)
  rw [immBytes_length] at this
  rw [Memory.read64, Memory.write64, this, imm64_immBytes]

end Sys2Proof.Machine
end

