-- ==== Sys2Proof/Laws/Decode.lean ====
section
/-! SUPPORT. Laws/Decode.lean: the operand fields, the catalog, and what the decoder can answer. -/

namespace Sys2Proof

/-! ### Operand fields -/

theorem reg_val (b : Byte) : (reg b).val = b.toNat % 8 := rfl

/-- The byte that names a register selects it. -/
@[simp] theorem reg_regByte (r : RegIx) : reg (regByte r) = r := by
  apply Fin.ext
  have := r.isLt
  simp only [reg, regByte, BitVec.toNat_ofNat]
  omega

/-- Every register is selected by some byte. -/
theorem reg_surjective : Function.Surjective reg := fun r => ⟨regByte r, reg_regByte r⟩

/-- Eight bytes followed by others, as the eight bytes of an immediate. -/
theorem immBytes_eq (v : Word) :
    immBytes v = [BitVec.ofNat 8 v.toNat, BitVec.ofNat 8 (v.toNat / 256), BitVec.ofNat 8 (v.toNat / 256 / 256),
      BitVec.ofNat 8 (v.toNat / 256 / 256 / 256), BitVec.ofNat 8 (v.toNat / 256 / 256 / 256 / 256),
      BitVec.ofNat 8 (v.toNat / 256 / 256 / 256 / 256 / 256), BitVec.ofNat 8 (v.toNat / 256 / 256 / 256 / 256 / 256 / 256),
      BitVec.ofNat 8 (v.toNat / 256 / 256 / 256 / 256 / 256 / 256 / 256)] := rfl

/-! ### The catalog -/

/-- The unknown opcodes are exactly 22 to 255 (R66). -/
theorem catalog_eq_none_iff (op : Byte) : catalog op = none ↔ 22 ≤ op.toNat := by
  constructor
  · intro h
    by_contra hlt
    have hlt : op.toNat < 22 := by omega
    unfold catalog at h
    generalize op.toNat = n at h hlt
    interval_cases n <;> simp at h
  · intro h
    unfold catalog
    split <;> first | rfl | omega

/-- Operands are read exactly when as many bytes are left as the format has (R84). -/
theorem readOperands_eq_none_iff (e : Entry) (bs : List Byte) :
    readOperands e bs = none ↔ bs.length < e.format.operandBytes := by
  cases e with
  | n mk => simp [readOperands, Entry.format, Format.operandBytes]
  | r mk => cases bs <;> simp [readOperands, Entry.format, Format.operandBytes]
  | rr mk => rcases bs with _ | ⟨_, _ | ⟨_, bs⟩⟩ <;> simp [readOperands, Entry.format, Format.operandBytes]
  | rrr mk =>
    rcases bs with _ | ⟨_, _ | ⟨_, _ | ⟨_, bs⟩⟩⟩ <;> simp [readOperands, Entry.format, Format.operandBytes]
  | ri mk =>
    rcases bs with _ | ⟨_, _ | ⟨_, _ | ⟨_, _ | ⟨_, _ | ⟨_, _ | ⟨_, _ | ⟨_, _ | ⟨_, _ | ⟨_, bs⟩⟩⟩⟩⟩⟩⟩⟩⟩ <;>
      simp [readOperands, Entry.format, Format.operandBytes]

/-- The bytes that `readOperands` uses are the format's operand bytes. -/
theorem readOperands_rest {e : Entry} {bs rest : List Byte} {i : Instr} (h : readOperands e bs = some (i, rest)) :
    ∃ pre, bs = pre ++ rest ∧ pre.length = e.format.operandBytes := by
  cases e with
  | n mk => simp only [readOperands, Option.some.injEq, Prod.mk.injEq] at h; exact ⟨[], by simp [h.2], rfl⟩
  | r mk =>
    rcases bs with _ | ⟨a, bs⟩ <;> simp only [readOperands, Option.some.injEq, Prod.mk.injEq, reduceCtorEq] at h
    exact ⟨[a], by simp [h.2], rfl⟩
  | rr mk =>
    rcases bs with _ | ⟨a, _ | ⟨b, bs⟩⟩ <;>
      simp only [readOperands, Option.some.injEq, Prod.mk.injEq, reduceCtorEq] at h
    exact ⟨[a, b], by simp [h.2], rfl⟩
  | rrr mk =>
    rcases bs with _ | ⟨a, _ | ⟨b, _ | ⟨c, bs⟩⟩⟩ <;>
      simp only [readOperands, Option.some.injEq, Prod.mk.injEq, reduceCtorEq] at h
    exact ⟨[a, b, c], by simp [h.2], rfl⟩
  | ri mk =>
    rcases bs with _ | ⟨r, _ | ⟨a, _ | ⟨b, _ | ⟨c, _ | ⟨d, _ | ⟨e, _ | ⟨f, _ | ⟨g, _ | ⟨k, bs⟩⟩⟩⟩⟩⟩⟩⟩⟩ <;>
      simp only [readOperands, Option.some.injEq, Prod.mk.injEq, reduceCtorEq] at h
    exact ⟨[r, a, b, c, d, e, f, g, k], by simp [h.2], rfl⟩

/-- Every instruction an entry can build has property `P`. -/
def Entry.All (P : Instr → Prop) : Entry → Prop
  | .n i => P i
  | .r mk => ∀ a, P (mk a)
  | .rr mk => ∀ a b, P (mk a b)
  | .rrr mk => ∀ a b c, P (mk a b c)
  | .ri mk => ∀ a v, P (mk a v)

/-- What an entry reads is one of the instructions it can build. -/
theorem readOperands_all {P : Instr → Prop} {e : Entry} {bs rest : List Byte} {i : Instr} (he : e.All P)
    (h : readOperands e bs = some (i, rest)) : P i := by
  unfold readOperands at h
  split at h <;> simp only [Option.some.injEq, Prod.mk.injEq, reduceCtorEq] at h <;> obtain ⟨rfl, -⟩ := h <;> apply he

/-- A catalog entry builds instructions of its own format and opcode (R65). -/
theorem catalog_all {op : Byte} {e : Entry} (hc : catalog op = some e) :
    e.All fun i => i.format = e.format ∧ i.opcode = op := by
  have hop : op.toNat < 22 := by
    by_contra hge
    rw [(catalog_eq_none_iff op).mpr (by omega)] at hc
    cases hc
  have hval : op = BitVec.ofNat 8 op.toNat := by simp
  unfold catalog at hc
  generalize op.toNat = n at hc hop hval
  subst hval
  interval_cases n <;> simp only [Option.some.injEq] at hc <;> subst hc <;>
    simp [Entry.All, Instr.format, Entry.format, Instr.opcode]

theorem readOperands_format {op : Byte} {e : Entry} {bs rest : List Byte} {i : Instr} (hc : catalog op = some e)
    (h : readOperands e bs = some (i, rest)) : i.format = e.format ∧ i.opcode = op :=
  readOperands_all (catalog_all hc) h

/-! ### What the decoder can answer -/

/-- The decoder's three answers on a byte sequence that has an opcode byte (R69). -/
theorem decode_cases (op : Byte) (bs : List Byte) :
    (catalog op = none ∧ decode (op :: bs) = .error (.unknownOpcode op)) ∨
    (∃ e, catalog op = some e ∧ bs.length < e.format.operandBytes ∧ decode (op :: bs) = .error (.truncated op)) ∨
    (∃ e i rest, catalog op = some e ∧ e.format.operandBytes ≤ bs.length ∧ readOperands e bs = some (i, rest) ∧
      decode (op :: bs) = .ok (i, rest)) := by
  cases hc : catalog op with
  | none => exact .inl ⟨rfl, by simp [decode, hc]⟩
  | some e =>
    cases hr : readOperands e bs with
    | none => exact .inr (.inl ⟨e, rfl, (readOperands_eq_none_iff e bs).mp hr, by simp [decode, hc, hr]⟩)
    | some r =>
      have hlen : ¬ bs.length < e.format.operandBytes := fun hl => by
        rw [(readOperands_eq_none_iff e bs).mpr hl] at hr
        cases hr
      exact .inr (.inr ⟨e, r.1, r.2, rfl, by omega, hr, by simp [decode, hc, hr]⟩)

/-- What a successful decoding says: the bytes used are the instruction's length and begin with its opcode. -/
theorem decode_ok {bs rest : List Byte} {i : Instr} (h : decode bs = .ok (i, rest)) :
    ∃ pre, bs = (i.opcode :: pre) ++ rest ∧ (i.opcode :: pre).length = i.length := by
  cases bs with
  | nil => cases h
  | cons op bs =>
    rcases decode_cases op bs with ⟨-, h'⟩ | ⟨e, -, -, h'⟩ | ⟨e, j, rest', hc, -, hr, h'⟩
    · rw [h'] at h; cases h
    · rw [h'] at h; cases h
    · rw [h'] at h
      injection h with h
      injection h with h1 h2
      subst h1 h2
      obtain ⟨pre, hbs, hl⟩ := readOperands_rest hr
      obtain ⟨hf, ho⟩ := readOperands_format hc hr
      refine ⟨pre, by simp [hbs, ho], ?_⟩
      simp only [List.length_cons, Instr.length, Format.length, hf, hl]
      omega

/-! ### The encoder -/

/-- The bytes of an instruction are as many as its length. -/
@[simp] theorem encode_length (i : Instr) : (encode i).length = i.length := by
  cases i <;> simp [encode, Instr.operandBytes, Instr.length, Instr.format, Format.length, Format.operandBytes]

theorem instr_length_pos (i : Instr) : 0 < i.length := by
  simp only [Instr.length, Format.length]
  omega

theorem instr_length_le (i : Instr) : i.length ≤ maxLength := by
  cases i <;> simp [Instr.length, Instr.format, Format.length, Format.operandBytes, maxLength]

end Sys2Proof
end

