-- ==== Sys2Proof/Laws/PerInstr.lean ====
section
/-! SUPPORT. Laws/PerInstr.lean: statements made of every instruction, one lemma per constructor. -/

namespace Sys2Proof.Laws

open Sys2Proof

/-- The decoder reads an instruction's bytes back, whatever follows them (R69). -/
def RoundTrip.Statement (i : Instr) : Prop := ∀ rest, decode (encode i ++ rest) = .ok (i, rest)

/-! One lemma per format; an instruction's own lemma cites the one of its format. -/

theorem RoundTrip.of_r {op : Byte} {mk : RegIx → Instr} (hc : catalog op = some (.r mk)) (a : RegIx)
    (rest : List Byte) : decode (op :: regByte a :: rest) = .ok (mk a, rest) := by
  simp only [decode, hc, readOperands, reg_regByte]

theorem RoundTrip.of_rr {op : Byte} {mk : RegIx → RegIx → Instr} (hc : catalog op = some (.rr mk)) (a b : RegIx)
    (rest : List Byte) : decode (op :: regByte a :: regByte b :: rest) = .ok (mk a b, rest) := by
  simp only [decode, hc, readOperands, reg_regByte]

theorem RoundTrip.of_rrr {op : Byte} {mk : RegIx → RegIx → RegIx → Instr} (hc : catalog op = some (.rrr mk))
    (a b c : RegIx) (rest : List Byte) :
    decode (op :: regByte a :: regByte b :: regByte c :: rest) = .ok (mk a b c, rest) := by
  simp only [decode, hc, readOperands, reg_regByte]

theorem RoundTrip.of_ri {op : Byte} {mk : RegIx → Word → Instr} (hc : catalog op = some (.ri mk)) (r : RegIx) (v : Word)
    (rest : List Byte) : decode ((op :: regByte r :: immBytes v) ++ rest) = .ok (mk r v, rest) := by
  have h := imm64_immBytes v
  rw [immBytes_eq] at h ⊢
  simp only [List.cons_append, List.nil_append, decode, hc, readOperands, reg_regByte, h]

theorem RoundTrip.halt : RoundTrip.Statement .halt := fun _ => rfl
theorem RoundTrip.load (rd : RegIx) (imm : Word) : RoundTrip.Statement (.load rd imm) :=
  RoundTrip.of_ri rfl rd imm
theorem RoundTrip.loadAddr (rd : RegIx) (addr : Word) : RoundTrip.Statement (.loadAddr rd addr) :=
  RoundTrip.of_ri rfl rd addr
theorem RoundTrip.storeAddr (rs : RegIx) (addr : Word) : RoundTrip.Statement (.storeAddr rs addr) :=
  RoundTrip.of_ri rfl rs addr
theorem RoundTrip.move (rd rs : RegIx) : RoundTrip.Statement (.move rd rs) :=
  RoundTrip.of_rr rfl rd rs
theorem RoundTrip.add (rd ra rb : RegIx) : RoundTrip.Statement (.add rd ra rb) :=
  RoundTrip.of_rrr rfl rd ra rb
theorem RoundTrip.sub (rd ra rb : RegIx) : RoundTrip.Statement (.sub rd ra rb) :=
  RoundTrip.of_rrr rfl rd ra rb
theorem RoundTrip.mul (rd ra rb : RegIx) : RoundTrip.Statement (.mul rd ra rb) :=
  RoundTrip.of_rrr rfl rd ra rb
theorem RoundTrip.div (rd ra rb : RegIx) : RoundTrip.Statement (.div rd ra rb) :=
  RoundTrip.of_rrr rfl rd ra rb
theorem RoundTrip.inc (rd : RegIx) : RoundTrip.Statement (.inc rd) :=
  RoundTrip.of_r rfl rd
theorem RoundTrip.dec (rd : RegIx) : RoundTrip.Statement (.dec rd) :=
  RoundTrip.of_r rfl rd
theorem RoundTrip.and (rd ra rb : RegIx) : RoundTrip.Statement (.and rd ra rb) :=
  RoundTrip.of_rrr rfl rd ra rb
theorem RoundTrip.not (rd : RegIx) : RoundTrip.Statement (.not rd) :=
  RoundTrip.of_r rfl rd
theorem RoundTrip.or (rd ra rb : RegIx) : RoundTrip.Statement (.or rd ra rb) :=
  RoundTrip.of_rrr rfl rd ra rb
theorem RoundTrip.xor (rd ra rb : RegIx) : RoundTrip.Statement (.xor rd ra rb) :=
  RoundTrip.of_rrr rfl rd ra rb
theorem RoundTrip.cmp (rd ra rb : RegIx) : RoundTrip.Statement (.cmp rd ra rb) :=
  RoundTrip.of_rrr rfl rd ra rb
theorem RoundTrip.jump (rt : RegIx) : RoundTrip.Statement (.jump rt) :=
  RoundTrip.of_r rfl rt
theorem RoundTrip.jumpIfNz (rc rt : RegIx) : RoundTrip.Statement (.jumpIfNz rc rt) :=
  RoundTrip.of_rr rfl rc rt
theorem RoundTrip.jumpIfZ (rc rt : RegIx) : RoundTrip.Statement (.jumpIfZ rc rt) :=
  RoundTrip.of_rr rfl rc rt
theorem RoundTrip.loop (rc rt : RegIx) : RoundTrip.Statement (.loop rc rt) :=
  RoundTrip.of_rr rfl rc rt
theorem RoundTrip.trap (rn rv : RegIx) : RoundTrip.Statement (.trap rn rv) :=
  RoundTrip.of_rr rfl rn rv
theorem RoundTrip.print (rs : RegIx) : RoundTrip.Statement (.print rs) :=
  RoundTrip.of_r rfl rs

end Sys2Proof.Laws
end

