-- ==== Sys2Proof/Laws/State.lean ====
section
/-! SUPPORT. Laws/State.lean: what each update of State leaves in each field, and what the accessors read after it. -/

namespace Sys2Proof.Machine

open Sys2Proof

variable (s : State)

/-! ### setReg -/

@[simp] theorem State.setReg_regs (i : RegIx) (v : Word) : (s.setReg i v).regs = s.regs.set i v := rfl
@[simp] theorem State.setReg_pc (i : RegIx) (v : Word) : (s.setReg i v).pc = s.pc := rfl
@[simp] theorem State.setReg_status (i : RegIx) (v : Word) : (s.setReg i v).status = s.status := rfl
@[simp] theorem State.setReg_fault (i : RegIx) (v : Word) : (s.setReg i v).fault = s.fault := rfl
@[simp] theorem State.setReg_mem (i : RegIx) (v : Word) : (s.setReg i v).mem = s.mem := rfl
@[simp] theorem State.setReg_codeSize (i : RegIx) (v : Word) : (s.setReg i v).codeSize = s.codeSize := rfl
@[simp] theorem State.setReg_memSize (i : RegIx) (v : Word) : (s.setReg i v).memSize = s.memSize := rfl
@[simp] theorem State.setReg_out (i : RegIx) (v : Word) : (s.setReg i v).out = s.out := rfl
@[simp] theorem State.setReg_diag (i : RegIx) (v : Word) : (s.setReg i v).diag = s.diag := rfl
@[simp] theorem State.setReg_getcWait (i : RegIx) (v : Word) : (s.setReg i v).getcWait = s.getcWait := rfl
@[simp] theorem State.setReg_input (i : RegIx) (v : Word) : (s.setReg i v).input = s.input := rfl
@[simp] theorem State.setReg_inputEnded (i : RegIx) (v : Word) : (s.setReg i v).inputEnded = s.inputEnded := rfl
@[simp] theorem State.setReg_readByte (i : RegIx) (v : Word) (x : Nat) : (s.setReg i v).readByte x = s.readByte x := rfl

/-! ### advance -/

@[simp] theorem State.advance_regs (n : Nat) : (s.advance n).regs = s.regs := rfl
@[simp] theorem State.advance_pc (n : Nat) : (s.advance n).pc = s.pc + BitVec.ofNat 64 n := rfl
@[simp] theorem State.advance_status (n : Nat) : (s.advance n).status = s.status := rfl
@[simp] theorem State.advance_fault (n : Nat) : (s.advance n).fault = s.fault := rfl
@[simp] theorem State.advance_mem (n : Nat) : (s.advance n).mem = s.mem := rfl
@[simp] theorem State.advance_codeSize (n : Nat) : (s.advance n).codeSize = s.codeSize := rfl
@[simp] theorem State.advance_memSize (n : Nat) : (s.advance n).memSize = s.memSize := rfl
@[simp] theorem State.advance_out (n : Nat) : (s.advance n).out = s.out := rfl
@[simp] theorem State.advance_diag (n : Nat) : (s.advance n).diag = s.diag := rfl
@[simp] theorem State.advance_getcWait (n : Nat) : (s.advance n).getcWait = s.getcWait := rfl
@[simp] theorem State.advance_input (n : Nat) : (s.advance n).input = s.input := rfl
@[simp] theorem State.advance_inputEnded (n : Nat) : (s.advance n).inputEnded = s.inputEnded := rfl
@[simp] theorem State.advance_reg (n : Nat) (r : RegIx) : (s.advance n).reg r = s.reg r := rfl
@[simp] theorem State.advance_readByte (n : Nat) (x : Nat) : (s.advance n).readByte x = s.readByte x := rfl

/-! ### past -/

@[simp] theorem State.past_regs (f : Format) : (s.past f).regs = s.regs := rfl
@[simp] theorem State.past_pc (f : Format) : (s.past f).pc = s.pc + BitVec.ofNat 64 f.length := rfl
@[simp] theorem State.past_status (f : Format) : (s.past f).status = s.status := rfl
@[simp] theorem State.past_fault (f : Format) : (s.past f).fault = s.fault := rfl
@[simp] theorem State.past_mem (f : Format) : (s.past f).mem = s.mem := rfl
@[simp] theorem State.past_codeSize (f : Format) : (s.past f).codeSize = s.codeSize := rfl
@[simp] theorem State.past_memSize (f : Format) : (s.past f).memSize = s.memSize := rfl
@[simp] theorem State.past_out (f : Format) : (s.past f).out = s.out := rfl
@[simp] theorem State.past_diag (f : Format) : (s.past f).diag = s.diag := rfl
@[simp] theorem State.past_getcWait (f : Format) : (s.past f).getcWait = s.getcWait := rfl
@[simp] theorem State.past_input (f : Format) : (s.past f).input = s.input := rfl
@[simp] theorem State.past_inputEnded (f : Format) : (s.past f).inputEnded = s.inputEnded := rfl
@[simp] theorem State.past_reg (f : Format) (r : RegIx) : (s.past f).reg r = s.reg r := rfl
@[simp] theorem State.past_readByte (f : Format) (x : Nat) : (s.past f).readByte x = s.readByte x := rfl

/-! ### jumpTo -/

@[simp] theorem State.jumpTo_regs (a : Word) : (s.jumpTo a).regs = s.regs := rfl
@[simp] theorem State.jumpTo_pc (a : Word) : (s.jumpTo a).pc = a := rfl
@[simp] theorem State.jumpTo_status (a : Word) : (s.jumpTo a).status = s.status := rfl
@[simp] theorem State.jumpTo_fault (a : Word) : (s.jumpTo a).fault = s.fault := rfl
@[simp] theorem State.jumpTo_mem (a : Word) : (s.jumpTo a).mem = s.mem := rfl
@[simp] theorem State.jumpTo_codeSize (a : Word) : (s.jumpTo a).codeSize = s.codeSize := rfl
@[simp] theorem State.jumpTo_memSize (a : Word) : (s.jumpTo a).memSize = s.memSize := rfl
@[simp] theorem State.jumpTo_out (a : Word) : (s.jumpTo a).out = s.out := rfl
@[simp] theorem State.jumpTo_diag (a : Word) : (s.jumpTo a).diag = s.diag := rfl
@[simp] theorem State.jumpTo_getcWait (a : Word) : (s.jumpTo a).getcWait = s.getcWait := rfl
@[simp] theorem State.jumpTo_input (a : Word) : (s.jumpTo a).input = s.input := rfl
@[simp] theorem State.jumpTo_inputEnded (a : Word) : (s.jumpTo a).inputEnded = s.inputEnded := rfl
@[simp] theorem State.jumpTo_reg (a : Word) (r : RegIx) : (s.jumpTo a).reg r = s.reg r := rfl
@[simp] theorem State.jumpTo_readByte (a : Word) (x : Nat) : (s.jumpTo a).readByte x = s.readByte x := rfl

/-! ### halt -/

@[simp] theorem State.halt_regs : (s.halt).regs = s.regs := rfl
@[simp] theorem State.halt_pc : (s.halt).pc = s.pc := rfl
@[simp] theorem State.halt_status : (s.halt).status = .halted := rfl
@[simp] theorem State.halt_fault : (s.halt).fault = s.fault := rfl
@[simp] theorem State.halt_mem : (s.halt).mem = s.mem := rfl
@[simp] theorem State.halt_codeSize : (s.halt).codeSize = s.codeSize := rfl
@[simp] theorem State.halt_memSize : (s.halt).memSize = s.memSize := rfl
@[simp] theorem State.halt_out : (s.halt).out = s.out := rfl
@[simp] theorem State.halt_diag : (s.halt).diag = s.diag := rfl
@[simp] theorem State.halt_getcWait : (s.halt).getcWait = s.getcWait := rfl
@[simp] theorem State.halt_input : (s.halt).input = s.input := rfl
@[simp] theorem State.halt_inputEnded : (s.halt).inputEnded = s.inputEnded := rfl
@[simp] theorem State.halt_reg (r : RegIx) : (s.halt).reg r = s.reg r := rfl
@[simp] theorem State.halt_readByte (x : Nat) : (s.halt).readByte x = s.readByte x := rfl

/-! ### raise -/

@[simp] theorem State.raise_regs (f : FaultRecord) : (s.raise f).regs = s.regs := rfl
@[simp] theorem State.raise_pc (f : FaultRecord) : (s.raise f).pc = s.pc := rfl
@[simp] theorem State.raise_status (f : FaultRecord) : (s.raise f).status = .faulted := rfl
@[simp] theorem State.raise_fault (f : FaultRecord) : (s.raise f).fault = some f := rfl
@[simp] theorem State.raise_mem (f : FaultRecord) : (s.raise f).mem = s.mem := rfl
@[simp] theorem State.raise_codeSize (f : FaultRecord) : (s.raise f).codeSize = s.codeSize := rfl
@[simp] theorem State.raise_memSize (f : FaultRecord) : (s.raise f).memSize = s.memSize := rfl
@[simp] theorem State.raise_out (f : FaultRecord) : (s.raise f).out = s.out := rfl
@[simp] theorem State.raise_diag (f : FaultRecord) : (s.raise f).diag = s.diag := rfl
@[simp] theorem State.raise_getcWait (f : FaultRecord) : (s.raise f).getcWait = s.getcWait := rfl
@[simp] theorem State.raise_input (f : FaultRecord) : (s.raise f).input = s.input := rfl
@[simp] theorem State.raise_inputEnded (f : FaultRecord) : (s.raise f).inputEnded = s.inputEnded := rfl
@[simp] theorem State.raise_reg (f : FaultRecord) (r : RegIx) : (s.raise f).reg r = s.reg r := rfl
@[simp] theorem State.raise_readByte (f : FaultRecord) (x : Nat) : (s.raise f).readByte x = s.readByte x := rfl

/-! ### emit -/

@[simp] theorem State.emit_regs (e : OutEvent) : (s.emit e).regs = s.regs := rfl
@[simp] theorem State.emit_pc (e : OutEvent) : (s.emit e).pc = s.pc := rfl
@[simp] theorem State.emit_status (e : OutEvent) : (s.emit e).status = s.status := rfl
@[simp] theorem State.emit_fault (e : OutEvent) : (s.emit e).fault = s.fault := rfl
@[simp] theorem State.emit_mem (e : OutEvent) : (s.emit e).mem = s.mem := rfl
@[simp] theorem State.emit_codeSize (e : OutEvent) : (s.emit e).codeSize = s.codeSize := rfl
@[simp] theorem State.emit_memSize (e : OutEvent) : (s.emit e).memSize = s.memSize := rfl
@[simp] theorem State.emit_out (e : OutEvent) : (s.emit e).out = s.out ++ [e] := rfl
@[simp] theorem State.emit_diag (e : OutEvent) : (s.emit e).diag = s.diag := rfl
@[simp] theorem State.emit_getcWait (e : OutEvent) : (s.emit e).getcWait = s.getcWait := rfl
@[simp] theorem State.emit_input (e : OutEvent) : (s.emit e).input = s.input := rfl
@[simp] theorem State.emit_inputEnded (e : OutEvent) : (s.emit e).inputEnded = s.inputEnded := rfl
@[simp] theorem State.emit_reg (e : OutEvent) (r : RegIx) : (s.emit e).reg r = s.reg r := rfl
@[simp] theorem State.emit_readByte (e : OutEvent) (x : Nat) : (s.emit e).readByte x = s.readByte x := rfl

/-! ### logDiag -/

@[simp] theorem State.logDiag_regs (e : DiagEntry) : (s.logDiag e).regs = s.regs := rfl
@[simp] theorem State.logDiag_pc (e : DiagEntry) : (s.logDiag e).pc = s.pc := rfl
@[simp] theorem State.logDiag_status (e : DiagEntry) : (s.logDiag e).status = s.status := rfl
@[simp] theorem State.logDiag_fault (e : DiagEntry) : (s.logDiag e).fault = s.fault := rfl
@[simp] theorem State.logDiag_mem (e : DiagEntry) : (s.logDiag e).mem = s.mem := rfl
@[simp] theorem State.logDiag_codeSize (e : DiagEntry) : (s.logDiag e).codeSize = s.codeSize := rfl
@[simp] theorem State.logDiag_memSize (e : DiagEntry) : (s.logDiag e).memSize = s.memSize := rfl
@[simp] theorem State.logDiag_out (e : DiagEntry) : (s.logDiag e).out = s.out := rfl
@[simp] theorem State.logDiag_diag (e : DiagEntry) : (s.logDiag e).diag = s.diag ++ [e] := rfl
@[simp] theorem State.logDiag_getcWait (e : DiagEntry) : (s.logDiag e).getcWait = s.getcWait := rfl
@[simp] theorem State.logDiag_input (e : DiagEntry) : (s.logDiag e).input = s.input := rfl
@[simp] theorem State.logDiag_inputEnded (e : DiagEntry) : (s.logDiag e).inputEnded = s.inputEnded := rfl
@[simp] theorem State.logDiag_reg (e : DiagEntry) (r : RegIx) : (s.logDiag e).reg r = s.reg r := rfl
@[simp] theorem State.logDiag_readByte (e : DiagEntry) (x : Nat) : (s.logDiag e).readByte x = s.readByte x := rfl

/-! ### wait -/

@[simp] theorem State.wait_regs : (s.wait).regs = s.regs := rfl
@[simp] theorem State.wait_pc : (s.wait).pc = s.pc := rfl
@[simp] theorem State.wait_status : (s.wait).status = s.status := rfl
@[simp] theorem State.wait_fault : (s.wait).fault = s.fault := rfl
@[simp] theorem State.wait_mem : (s.wait).mem = s.mem := rfl
@[simp] theorem State.wait_codeSize : (s.wait).codeSize = s.codeSize := rfl
@[simp] theorem State.wait_memSize : (s.wait).memSize = s.memSize := rfl
@[simp] theorem State.wait_out : (s.wait).out = s.out := rfl
@[simp] theorem State.wait_diag : (s.wait).diag = s.diag := rfl
@[simp] theorem State.wait_getcWait : (s.wait).getcWait = true := rfl
@[simp] theorem State.wait_input : (s.wait).input = s.input := rfl
@[simp] theorem State.wait_inputEnded : (s.wait).inputEnded = s.inputEnded := rfl
@[simp] theorem State.wait_reg (r : RegIx) : (s.wait).reg r = s.reg r := rfl
@[simp] theorem State.wait_readByte (x : Nat) : (s.wait).readByte x = s.readByte x := rfl

/-! ### wake -/

@[simp] theorem State.wake_regs : (s.wake).regs = s.regs := rfl
@[simp] theorem State.wake_pc : (s.wake).pc = s.pc := rfl
@[simp] theorem State.wake_status : (s.wake).status = s.status := rfl
@[simp] theorem State.wake_fault : (s.wake).fault = s.fault := rfl
@[simp] theorem State.wake_mem : (s.wake).mem = s.mem := rfl
@[simp] theorem State.wake_codeSize : (s.wake).codeSize = s.codeSize := rfl
@[simp] theorem State.wake_memSize : (s.wake).memSize = s.memSize := rfl
@[simp] theorem State.wake_out : (s.wake).out = s.out := rfl
@[simp] theorem State.wake_diag : (s.wake).diag = s.diag := rfl
@[simp] theorem State.wake_getcWait : (s.wake).getcWait = false := rfl
@[simp] theorem State.wake_input : (s.wake).input = s.input := rfl
@[simp] theorem State.wake_inputEnded : (s.wake).inputEnded = s.inputEnded := rfl
@[simp] theorem State.wake_reg (r : RegIx) : (s.wake).reg r = s.reg r := rfl
@[simp] theorem State.wake_readByte (x : Nat) : (s.wake).readByte x = s.readByte x := rfl

/-! ### storeWord -/

@[simp] theorem State.storeWord_regs (a v : Word) : (s.storeWord a v).regs = s.regs := rfl
@[simp] theorem State.storeWord_pc (a v : Word) : (s.storeWord a v).pc = s.pc := rfl
@[simp] theorem State.storeWord_status (a v : Word) : (s.storeWord a v).status = s.status := rfl
@[simp] theorem State.storeWord_fault (a v : Word) : (s.storeWord a v).fault = s.fault := rfl
@[simp] theorem State.storeWord_mem (a v : Word) : (s.storeWord a v).mem = s.mem.write64 (effectiveAddress a) v := rfl
@[simp] theorem State.storeWord_codeSize (a v : Word) : (s.storeWord a v).codeSize = s.codeSize := rfl
@[simp] theorem State.storeWord_memSize (a v : Word) : (s.storeWord a v).memSize = s.memSize := rfl
@[simp] theorem State.storeWord_out (a v : Word) : (s.storeWord a v).out = s.out := rfl
@[simp] theorem State.storeWord_diag (a v : Word) : (s.storeWord a v).diag = s.diag := rfl
@[simp] theorem State.storeWord_getcWait (a v : Word) : (s.storeWord a v).getcWait = s.getcWait := rfl
@[simp] theorem State.storeWord_input (a v : Word) : (s.storeWord a v).input = s.input := rfl
@[simp] theorem State.storeWord_inputEnded (a v : Word) : (s.storeWord a v).inputEnded = s.inputEnded := rfl
@[simp] theorem State.storeWord_reg (a v : Word) (r : RegIx) : (s.storeWord a v).reg r = s.reg r := rfl

/-! ### deliver -/

@[simp] theorem State.deliver_regs (b : Byte) : (s.deliver b).regs = s.regs := rfl
@[simp] theorem State.deliver_pc (b : Byte) : (s.deliver b).pc = s.pc := rfl
@[simp] theorem State.deliver_status (b : Byte) : (s.deliver b).status = s.status := rfl
@[simp] theorem State.deliver_fault (b : Byte) : (s.deliver b).fault = s.fault := rfl
@[simp] theorem State.deliver_mem (b : Byte) : (s.deliver b).mem = s.mem := rfl
@[simp] theorem State.deliver_codeSize (b : Byte) : (s.deliver b).codeSize = s.codeSize := rfl
@[simp] theorem State.deliver_memSize (b : Byte) : (s.deliver b).memSize = s.memSize := rfl
@[simp] theorem State.deliver_out (b : Byte) : (s.deliver b).out = s.out := rfl
@[simp] theorem State.deliver_diag (b : Byte) : (s.deliver b).diag = s.diag := rfl
@[simp] theorem State.deliver_getcWait (b : Byte) : (s.deliver b).getcWait = s.getcWait := rfl
@[simp] theorem State.deliver_input (b : Byte) : (s.deliver b).input = s.input ++ [b] := rfl
@[simp] theorem State.deliver_inputEnded (b : Byte) : (s.deliver b).inputEnded = s.inputEnded := rfl
@[simp] theorem State.deliver_reg (b : Byte) (r : RegIx) : (s.deliver b).reg r = s.reg r := rfl
@[simp] theorem State.deliver_readByte (b : Byte) (x : Nat) : (s.deliver b).readByte x = s.readByte x := rfl

/-! ### endInput -/

@[simp] theorem State.endInput_regs : (s.endInput).regs = s.regs := rfl
@[simp] theorem State.endInput_pc : (s.endInput).pc = s.pc := rfl
@[simp] theorem State.endInput_status : (s.endInput).status = s.status := rfl
@[simp] theorem State.endInput_fault : (s.endInput).fault = s.fault := rfl
@[simp] theorem State.endInput_mem : (s.endInput).mem = s.mem := rfl
@[simp] theorem State.endInput_codeSize : (s.endInput).codeSize = s.codeSize := rfl
@[simp] theorem State.endInput_memSize : (s.endInput).memSize = s.memSize := rfl
@[simp] theorem State.endInput_out : (s.endInput).out = s.out := rfl
@[simp] theorem State.endInput_diag : (s.endInput).diag = s.diag := rfl
@[simp] theorem State.endInput_getcWait : (s.endInput).getcWait = s.getcWait := rfl
@[simp] theorem State.endInput_input : (s.endInput).input = s.input := rfl
@[simp] theorem State.endInput_inputEnded : (s.endInput).inputEnded = true := rfl
@[simp] theorem State.endInput_reg (r : RegIx) : (s.endInput).reg r = s.reg r := rfl
@[simp] theorem State.endInput_readByte (x : Nat) : (s.endInput).readByte x = s.readByte x := rfl

/-! ### Registers after a register write -/

@[simp] theorem State.reg_setReg_self (i : RegIx) (v : Word) : (s.setReg i v).reg i = v := by
  simp [State.reg, State.setReg]

@[simp] theorem State.reg_setReg_other (i r : RegIx) (v : Word) (h : r ≠ i) : (s.setReg i v).reg r = s.reg r := by
  have h' : i.val ≠ r.val := fun e => h (Fin.ext e.symm)
  simp [State.reg, State.setReg, h']

theorem State.reg_setReg (i r : RegIx) (v : Word) : (s.setReg i v).reg r = if r = i then v else s.reg r := by
  split
  · next h => subst h; simp
  · next h => simp [h]

/-- Two states with the same registers read the same. -/
theorem State.regs_ext {s t : State} (h : ∀ r, t.reg r = s.reg r) : t.regs = s.regs := by
  apply Vector.ext
  intro i hi
  exact h ⟨i, hi⟩

/-! ### The bounds check (R45) -/

theorem State.inBounds_iff (addr : Word) : s.inBounds addr = true ↔ addr.toNat + 8 ≤ s.memSize := by
  unfold State.inBounds effectiveAddress accessBytes
  exact decide_eq_true_iff

theorem State.inBounds_eq_false_iff (addr : Word) : s.inBounds addr = false ↔ s.memSize < addr.toNat + 8 := by
  rw [← Bool.not_eq_true, State.inBounds_iff]
  omega

/-! ### Reset -/

@[simp] theorem State.reset_reg (r : RegIx) : State.reset.reg r = 0 := by
  simp [State.reset, State.reg]

@[simp] theorem State.reset_readByte (a : Nat) : State.reset.readByte a = 0 := rfl

end Sys2Proof.Machine
end

