-- ==== Sys2Proof/Laws/Step.lean ====
section
/-! SUPPORT. Laws/Step.lean: what the fetch, an instruction and a Step can do, each said once. -/

namespace Sys2Proof.Machine

open Sys2Proof Safety

/-! ### The fetch -/

@[simp] theorem State.fetchWindow_length (s : State) :
    s.fetchWindow.length = min maxLength (s.memSize - s.pc.toNat) := by
  simp [State.fetchWindow]

/-- The fetch window begins with the opcode byte where that byte exists. -/
theorem State.fetchWindow_eq_cons {s : State} (h : s.pc.toNat < s.memSize) :
    ∃ bs, s.fetchWindow = opcodeAt s :: bs ∧ bs.length = min maxLength (s.memSize - s.pc.toNat) - 1 := by
  have hl := s.fetchWindow_length
  cases hw : s.fetchWindow with
  | nil => rw [hw] at hl; simp [maxLength] at hl; omega
  | cons b bs =>
    refine ⟨bs, ?_, by rw [hw] at hl; simp at hl; omega⟩
    have h0 : 0 < s.fetchWindow.length := by rw [hw]; simp
    have e : s.fetchWindow[0] = opcodeAt s := by
      simp only [State.fetchWindow, Memory.readBytes_getElem]; rfl
    simp only [hw, List.getElem_cons_zero] at e
    rw [e]

/-- What the fetch answers where there is an opcode byte: unknown, truncated, or the decoded instruction, by the
catalog and the length check of R83 and R84. -/
theorem State.fetch_cases {s : State} (h : CanFetch s) :
    (catalog (opcodeAt s) = none ∧ s.fetch = .unknownOpcode (opcodeAt s)) ∨
    (∃ e, catalog (opcodeAt s) = some e ∧ s.memSize < s.pc.toNat + 1 + e.format.operandBytes ∧
      s.fetch = .truncated (opcodeAt s)) ∨
    (∃ e i rest, catalog (opcodeAt s) = some e ∧ s.pc.toNat + 1 + e.format.operandBytes ≤ s.memSize ∧
      i.format = e.format ∧ i.opcode = opcodeAt s ∧ decode s.fetchWindow = .ok (i, rest) ∧ s.fetch = .instr i) := by
  obtain ⟨hr, hp, hc⟩ := h
  have hin : ¬ s.codeSize ≤ s.pc.toNat := by omega
  obtain ⟨bs, hw, hl⟩ := State.fetchWindow_eq_cons (s := s) (by omega)
  have hle : ∀ e : Entry, e.format.operandBytes ≤ 9 := fun e => by cases e <;> simp [Entry.format, Format.operandBytes]
  rcases decode_cases (opcodeAt s) bs with ⟨h1, h2⟩ | ⟨e, h1, h2, h3⟩ | ⟨e, i, rest, h1, h2, h3, h4⟩
  · exact .inl ⟨h1, by simp [State.fetch, hr, hin, hw, h2]⟩
  · refine .inr (.inl ⟨e, h1, ?_, by simp [State.fetch, hr, hin, hw, h3]⟩)
    have := hle e
    simp only [maxLength] at hl
    omega
  · obtain ⟨hf, ho⟩ := readOperands_format h1 h3
    refine .inr (.inr ⟨e, i, rest, h1, ?_, hf, ho, by rw [hw, h4], by simp [State.fetch, hr, hin, hw, h4]⟩)
    simp only [maxLength] at hl
    omega

/-- An instruction is fetched only by a Running core inside the program, and it is what the window decodes to. -/
theorem State.fetch_instr {s : State} {i : Instr} (h : s.fetch = .instr i) :
    s.status = .running ∧ s.pc.toNat < s.codeSize ∧ ∃ rest, decode s.fetchWindow = .ok (i, rest) := by
  unfold State.fetch at h
  split at h
  · cases h
  · cases h
  · next hr =>
    split at h
    · cases h
    · next hp =>
      refine ⟨hr, by omega, ?_⟩
      split at h
      · next j rest hd => injection h with h; subst h; exact ⟨rest, hd⟩
      all_goals cases h

theorem State.fetch_of_decode {s : State} {i : Instr} {rest : List Byte} (hr : s.status = .running)
    (hp : s.pc.toNat < s.codeSize) (hd : decode s.fetchWindow = .ok (i, rest)) : s.fetch = .instr i := by
  have hin : ¬ s.codeSize ≤ s.pc.toNat := by omega
  simp [State.fetch, hr, hin, hd]

/-- A fetched instruction lies below `memory_size` (R47). -/
theorem State.fetch_instr_fits {s : State} {i : Instr} (h : s.fetch = .instr i) :
    s.pc.toNat + i.length ≤ s.memSize := by
  obtain ⟨-, -, rest, hd⟩ := State.fetch_instr h
  obtain ⟨pre, hw, hl⟩ := decode_ok hd
  have h1 := s.fetchWindow_length
  have h2 := congrArg List.length hw
  have h3 := instr_length_pos i
  simp only [List.length_append, hl] at h2
  omega

/-- The fetch reads status, `pc`, `code_size`, `memory_size` and memory, and nothing else. -/
theorem State.fetch_congr {s t : State} (h1 : t.status = s.status) (h2 : t.pc = s.pc) (h3 : t.codeSize = s.codeSize)
    (h4 : t.memSize = s.memSize) (h5 : t.mem = s.mem) : t.fetch = s.fetch := by
  simp only [State.fetch, State.fetchWindow, h1, h2, h3, h4, h5]

/-- The host's transactions on IN change nothing a fetch reads (R237). -/
@[simp] theorem State.deliver_fetch (s : State) (b : Byte) : (s.deliver b).fetch = s.fetch :=
  State.fetch_congr rfl rfl rfl rfl rfl

@[simp] theorem State.endInput_fetch (s : State) : s.endInput.fetch = s.fetch :=
  State.fetch_congr rfl rfl rfl rfl rfl

/-! ### The registers an instruction names as its destination -/

/-- The register an instruction may write (R21). -/
def destOf : Instr → Option RegIx
  | .load r _ | .loadAddr r _ | .move r _ | .add r _ _ | .sub r _ _ | .mul r _ _ | .div r _ _ | .inc r | .dec r
  | .and r _ _ | .not r | .or r _ _ | .xor r _ _ | .cmp r _ _ | .loop r _ | .trap _ r => some r
  | .halt | .storeAddr _ _ | .jump _ | .jumpIfNz _ _ | .jumpIfZ _ _ | .print _ => none

/-- The instructions whose whole effect is a register write. -/
def isRegOp : Instr → Bool
  | .load _ _ | .loadAddr _ _ | .move _ _ | .add _ _ _ | .sub _ _ _ | .mul _ _ _ | .div _ _ _ | .inc _ | .dec _
  | .and _ _ _ | .not _ | .or _ _ _ | .xor _ _ _ | .cmp _ _ _ => true
  | .halt | .storeAddr _ _ | .jump _ | .jumpIfNz _ _ | .jumpIfZ _ _ | .loop _ _ | .trap _ _ | .print _ => false

/-! ### What an instruction can do -/

/-- Everything an instruction `i` can do at `s`, one constructor per kind of effect. -/
inductive Effect (i : Instr) (s : State) : State → Prop where
  | writesReg (r : RegIx) (v : Word) (hd : destOf i = some r) (hi : isRegOp i = true) :
      Effect i s ((s.past i.format).setReg r v)
  | stores (rs : RegIx) (addr : Word) (hi : i = .storeAddr rs addr) (hb : s.inBounds addr = true) :
      Effect i s ((s.past i.format).storeWord addr (s.reg rs))
  | outOfBounds (r : RegIx) (addr : Word) (hi : i = .loadAddr r addr ∨ i = .storeAddr r addr)
      (hb : s.inBounds addr = false) : Effect i s ((s.past i.format).raise (.outOfBoundsAccess addr s.pc))
  | divByZero (rd ra rb : RegIx) (hi : i = .div rd ra rb) (hz : s.reg rb = 0) :
      Effect i s ((s.past i.format).raise (.divisionByZero s.pc))
  | halts (hi : i = .halt) : Effect i s (s.past i.format).halt
  | fallsThrough (rc rt : RegIx) (hi : i = .jumpIfNz rc rt ∨ i = .jumpIfZ rc rt ∨ i = .loop rc rt) :
      Effect i s (s.past i.format)
  | jumps (rt : RegIx)
      (hi : i = .jump rt ∨ (∃ rc, i = .jumpIfNz rc rt ∧ s.reg rc ≠ 0) ∨ (∃ rc, i = .jumpIfZ rc rt ∧ s.reg rc = 0)) :
      Effect i s ((s.past i.format).jumpTo (s.reg rt))
  | loops (rc rt : RegIx) (hi : i = .loop rc rt) (hz : s.reg rc ≠ 0) :
      Effect i s (((s.past i.format).countDown rc).jumpTo ((s.countDown rc).reg rt))
  | prints (rs : RegIx) (hi : i = .print rs) : Effect i s ((s.past i.format).emit (.dec (s.reg rs)))
  | putc (rn rv : RegIx) (hi : i = .trap rn rv) (hn : s.reg rn = 0) :
      Effect i s ((s.past i.format).emit (.byte ((s.reg rv).setWidth 8)))
  | unknownTrap (rn rv : RegIx) (hi : i = .trap rn rv) :
      Effect i s ((s.past i.format).logDiag { number := s.reg rn, position := s.pc })
  | getcByte (rn rv : RegIx) (b : Byte) (rest : List Byte) (hi : i = .trap rn rv) (hn : s.reg rn = 1)
      (hin : s.input = b :: rest) :
      Effect i s { ((s.past i.format).setReg rv (inputWord b)).wake with input := rest }
  | getcWaits (rn rv : RegIx) (hi : i = .trap rn rv) (hn : s.reg rn = 1) (hin : s.input = []) : Effect i s s.wait
  | getcKeeps (rn rv : RegIx) (hi : i = .trap rn rv) (hn : s.reg rn = 1) (hin : s.input = [])
      (he : s.inputEnded = true) : Effect i s (s.past i.format).wake
  | getcStores (rn rv : RegIx) (v : Word) (hi : i = .trap rn rv) (hn : s.reg rn = 1) (hin : s.input = [])
      (he : s.inputEnded = true) : Effect i s ((s.past i.format).setReg rv v).wake

@[simp] theorem isZero_iff (v : Word) : isZero v = true ↔ v = 0 := by simp [isZero]

/-- Every instruction is answered by a next state, and that state is one of its effects. -/
theorem exec_effect (i : Instr) (s : State) : ∃ t, exec i s = .next t ∧ Effect i s t := by
  cases i with
  | halt => exact ⟨_, rfl, .halts rfl⟩
  | load rd imm => exact ⟨_, rfl, .writesReg rd imm rfl rfl⟩
  | loadAddr rd addr =>
    simp only [exec, execLoadAddr]
    cases hb : s.inBounds addr
    · exact ⟨_, if_neg Bool.false_ne_true, .outOfBounds rd addr (.inl rfl) hb⟩
    · exact ⟨_, if_pos rfl, .writesReg rd _ rfl rfl⟩
  | storeAddr rs addr =>
    simp only [exec, execStoreAddr]
    cases hb : s.inBounds addr
    · exact ⟨_, if_neg Bool.false_ne_true, .outOfBounds rs addr (.inr rfl) hb⟩
    · exact ⟨_, if_pos rfl, .stores rs addr rfl hb⟩
  | move rd rs => exact ⟨_, rfl, .writesReg rd _ rfl rfl⟩
  | add rd ra rb => exact ⟨_, rfl, .writesReg rd _ rfl rfl⟩
  | sub rd ra rb => exact ⟨_, rfl, .writesReg rd _ rfl rfl⟩
  | mul rd ra rb => exact ⟨_, rfl, .writesReg rd _ rfl rfl⟩
  | div rd ra rb =>
    simp only [exec, execDiv]
    by_cases hz : isZero (s.reg rb) = true
    · exact ⟨_, if_pos hz, .divByZero rd ra rb rfl ((isZero_iff _).mp hz)⟩
    · exact ⟨_, if_neg hz, .writesReg rd _ rfl rfl⟩
  | inc rd => exact ⟨_, rfl, .writesReg rd _ rfl rfl⟩
  | dec rd => exact ⟨_, rfl, .writesReg rd _ rfl rfl⟩
  | and rd ra rb => exact ⟨_, rfl, .writesReg rd _ rfl rfl⟩
  | not rd => exact ⟨_, rfl, .writesReg rd _ rfl rfl⟩
  | or rd ra rb => exact ⟨_, rfl, .writesReg rd _ rfl rfl⟩
  | xor rd ra rb => exact ⟨_, rfl, .writesReg rd _ rfl rfl⟩
  | cmp rd ra rb => exact ⟨_, rfl, .writesReg rd _ rfl rfl⟩
  | jump rt => exact ⟨_, rfl, .jumps rt (.inl rfl)⟩
  | jumpIfNz rc rt =>
    simp only [exec, execJumpIfNz]
    by_cases hz : isZero (s.reg rc) = true
    · exact ⟨_, if_pos hz, .fallsThrough rc rt (.inl rfl)⟩
    · exact ⟨_, if_neg hz, .jumps rt (.inr (.inl ⟨rc, rfl, by simpa using hz⟩))⟩
  | jumpIfZ rc rt =>
    simp only [exec, execJumpIfZ]
    by_cases hz : isZero (s.reg rc) = true
    · exact ⟨_, if_pos hz, .jumps rt (.inr (.inr ⟨rc, rfl, by simpa using hz⟩))⟩
    · exact ⟨_, if_neg hz, .fallsThrough rc rt (.inr (.inl rfl))⟩
  | loop rc rt =>
    simp only [exec, execLoop]
    by_cases hz : isZero (s.reg rc) = true
    · exact ⟨_, if_pos hz, .fallsThrough rc rt (.inr (.inr rfl))⟩
    · exact ⟨_, if_neg hz, .loops rc rt rfl (by simpa using hz)⟩
  | trap rn rv =>
    simp only [exec, execTrap]
    by_cases h0 : s.reg rn = trapPutc
    · exact ⟨_, if_pos h0, .putc rn rv rfl h0⟩
    · rw [if_neg h0]
      by_cases h1 : s.reg rn = trapGetc
      · rw [if_pos h1]
        refine ⟨_, rfl, ?_⟩
        unfold getc
        split
        · next b rest hin => exact .getcByte rn rv b rest rfl h1 hin
        · next hin =>
          split
          · next he =>
            unfold getcAtEnd
            split
            · exact .getcWaits rn rv rfl h1 hin
            · exact .getcKeeps rn rv rfl h1 hin he
            · next v _ => exact .getcStores rn rv v rfl h1 hin he
          · exact .getcWaits rn rv rfl h1 hin
      · exact ⟨_, if_neg h1, .unknownTrap rn rv rfl⟩
  | print rs => exact ⟨_, rfl, .prints rs rfl⟩

/-- The inversion of `exec`. -/
theorem effect_of_exec {i : Instr} {s t : State} (h : exec i s = .next t) : Effect i s t := by
  obtain ⟨u, hu, he⟩ := exec_effect i s
  rw [hu] at h
  injection h with h
  exact h ▸ he

/-! ### What a Step can do -/

/-- The inversion of `step`: the Step's kind of end (R207), with the instruction's effect where one runs. -/
theorem step_cases {s t : State} (h : step s = .next t) :
    (s.status ≠ .running ∧ t = s) ∨
    (s.status = .running ∧ s.codeSize ≤ s.pc.toNat ∧ t = s.halt) ∨
    (∃ op, s.status = .running ∧ s.fetch = .unknownOpcode op ∧ t = (s.advance 1).raise (.unknownOpcode op s.pc)) ∨
    (∃ op, s.status = .running ∧ s.fetch = .truncated op ∧ t = (s.advance 1).raise (.truncatedInstruction op s.pc)) ∨
    (∃ i, s.status = .running ∧ s.fetch = .instr i ∧ exec i s = .next t ∧ Effect i s t) := by
  have run : ∀ f, s.fetch = f → f ≠ .stopped → s.status = .running := by
    intro f hf hne
    unfold State.fetch at hf
    split at hf
    · exact absurd hf.symm hne
    · exact absurd hf.symm hne
    · assumption
  have prog : s.fetch = .endOfProgram → s.codeSize ≤ s.pc.toNat := by
    intro hf
    unfold State.fetch at hf
    split at hf
    · cases hf
    · cases hf
    · split at hf
      · assumption
      · split at hf <;> cases hf
  unfold step at h
  split at h
  · next hf =>
    injection h with h
    refine .inl ⟨fun hr => ?_, h.symm⟩
    simp only [State.fetch, hr] at hf
    split at hf
    · cases hf
    · split at hf <;> cases hf
  · next hf => injection h with h; exact .inr (.inl ⟨run _ hf (by simp), prog hf, h.symm⟩)
  · cases h
  · next op hf => injection h with h; exact .inr (.inr (.inl ⟨op, run _ hf (by simp), hf, h.symm⟩))
  · next op hf => injection h with h; exact .inr (.inr (.inr (.inl ⟨op, run _ hf (by simp), hf, h.symm⟩)))
  · next i hf => exact .inr (.inr (.inr (.inr ⟨i, run _ hf (by simp), hf, h, effect_of_exec h⟩)))

theorem step_of_instr {s : State} {i : Instr} (h : s.fetch = .instr i) : step s = exec i s := by
  simp only [step, h]

theorem step_of_stopped {s : State} (h : s.status ≠ .running) : step s = .next s := by
  have : s.fetch = .stopped := by
    unfold State.fetch
    split <;> first | rfl | contradiction
  simp only [step, this, State.stayStopped]

theorem step_of_endOfProgram {s : State} (hr : s.status = .running) (hp : s.codeSize ≤ s.pc.toNat) :
    step s = .next s.halt := by
  simp only [step, State.fetch, hr, hp, if_true, State.endProgram]

end Sys2Proof.Machine
end

