-- ==== Sys2Proof/Tests/Slice0.lean ====
section
/-! SUPPORT. Tests/Slice0.lean: tests against the spec's own vectors (95_test_vectors.md, by id), the checks of
WellFormed, and a witness of the hypotheses of every statement that has some. -/

namespace Sys2Proof.Tests

open Sys2Proof Machine Safety

/-! ### Small states -/

/-- The core just constructed with an image and a capacity; tests set single fields of it. -/
def loaded (image : List Byte) (memorySize : Nat) : State :=
  { State.reset with mem := Memory.writeBytes [] 0 image, codeSize := image.length, memSize := memorySize }

/-- The core of an image that fills its memory, the start of the spec's vectors. -/
def tight (image : List Byte) : State := loaded image image.length

/-- The state an outcome holds, if it is a next state. -/
def after (o : Host.Outcome State Fault Refusal) : Option State :=
  match o with
  | .next t => some t
  | .fault _ => none
  | .refused _ => none

/-- Registers 0 and 1 set, the two sources of most vectors. -/
def with01 (a b : Word) (s : State) : State := (s.setReg 0 a).setReg 1 b

/-- What one Step leaves of a register. -/
def stepReg (r : RegIx) (s : State) : Option Word := (after (step s)).map fun t => t.reg r

/-- What one Step leaves of `pc` and status. -/
def stepEnd (s : State) : Option (Word × Status) := (after (step s)).map fun t => (t.pc, t.status)

/-! ### WellFormed: a term each check refuses (R230, R232) -/

theorem test_empty_image_refused : WellFormed.imageNonEmpty [] = false ∧ WellFormed.loadable [] 8 = false := by decide
theorem test_large_image_refused : WellFormed.imageFits [0, 0] 1 = false ∧ WellFormed.loadable [0, 0] 1 = false := by decide
theorem test_large_capacity_refused :
    WellFormed.capacityBounded (2 ^ 64) = false ∧ WellFormed.loadable [0] (2 ^ 64) = false := by decide
theorem test_tight_image_loads : WellFormed.loadable [0] 1 = true := by decide

/-! ### Decode: program P7 of 95_test_vectors.md, one word per opcode, and the vectors R-1, S-2, S-5 -/

theorem test_decode_halt : decode [0x00] = .ok (.halt, []) := rfl
theorem test_decode_load : decode [0x01, 0x01, 0x05, 0, 0, 0, 0, 0, 0, 0] = .ok (.load 1 5, []) := rfl
theorem test_decode_loadAddr : decode [0x02, 0x02, 0x10, 0, 0, 0, 0, 0, 0, 0] = .ok (.loadAddr 2 16, []) := rfl
theorem test_decode_storeAddr : decode [0x03, 0x03, 0x18, 0, 0, 0, 0, 0, 0, 0] = .ok (.storeAddr 3 24, []) := rfl
theorem test_decode_move : decode [0x04, 0x04, 0x05] = .ok (.move 4 5, []) := rfl
theorem test_decode_add : decode [0x05, 0x01, 0x02, 0x03] = .ok (.add 1 2 3, []) := rfl
theorem test_decode_sub : decode [0x06, 0x01, 0x02, 0x03] = .ok (.sub 1 2 3, []) := rfl
theorem test_decode_mul : decode [0x07, 0x01, 0x02, 0x03] = .ok (.mul 1 2 3, []) := rfl
theorem test_decode_div : decode [0x08, 0x01, 0x02, 0x03] = .ok (.div 1 2 3, []) := rfl
theorem test_decode_inc : decode [0x09, 0x06] = .ok (.inc 6, []) := rfl
theorem test_decode_dec : decode [0x0A, 0x07] = .ok (.dec 7, []) := rfl
theorem test_decode_and : decode [0x0B, 0x01, 0x02, 0x03] = .ok (.and 1 2 3, []) := rfl
theorem test_decode_not : decode [0x0C, 0x00] = .ok (.not 0, []) := rfl
theorem test_decode_or : decode [0x0D, 0x01, 0x02, 0x03] = .ok (.or 1 2 3, []) := rfl
theorem test_decode_xor : decode [0x0E, 0x01, 0x02, 0x03] = .ok (.xor 1 2 3, []) := rfl
theorem test_decode_cmp : decode [0x0F, 0x01, 0x02, 0x03] = .ok (.cmp 1 2 3, []) := rfl
theorem test_decode_jump : decode [0x10, 0x04] = .ok (.jump 4, []) := rfl
theorem test_decode_jumpIfNz : decode [0x11, 0x05, 0x06] = .ok (.jumpIfNz 5 6, []) := rfl
theorem test_decode_jumpIfZ : decode [0x12, 0x05, 0x06] = .ok (.jumpIfZ 5 6, []) := rfl
theorem test_decode_loop : decode [0x13, 0x07, 0x06] = .ok (.loop 7 6, []) := rfl
theorem test_decode_trap : decode [0x14, 0x00, 0x01] = .ok (.trap 0 1, []) := rfl
theorem test_decode_print : decode [0x15, 0x02] = .ok (.print 2, []) := rfl
theorem test_decode_masks_register_bytes : decode [0x05, 0x0A, 0x11, 0xFF] = .ok (.add 2 1 7, []) := rfl
theorem test_decode_unknown : decode [0x16, 0, 0, 0] = .error (.unknownOpcode 0x16) := rfl
theorem test_decode_truncated : decode [0x01, 0x00, 0x01, 0x02] = .error (.truncated 0x01) := rfl
theorem test_encode_storeAddr : encode (.storeAddr 0 100) = [0x03, 0x00, 0x64, 0, 0, 0, 0, 0, 0, 0] := by decide
theorem test_encode_jumpIfNz : encode (.jumpIfNz 4 5) = [0x11, 0x04, 0x05] := by decide
theorem test_table_word_load : decodeTableWord 80 0x00000000000000050301 = some (.load 3 5) := by decide
theorem test_table_word_short : decodeTableWord 8 0x02 = some (.loadAddr 0 0) := by decide
theorem test_table_word_unknown : decodeTableWord 8 0x16 = none := by decide

/-! ### One Step per vector (ids of 95_test_vectors.md) -/

theorem test_load_T1 : stepReg 0 (tight [0x01, 0, 0xFF, 0xFF, 0xFF, 0xFF, 0xFF, 0xFF, 0xFF, 0xFF]) =
    some 0xFFFFFFFFFFFFFFFF := by decide
theorem test_load_R100 : stepEnd (tight [0x01, 0x00, 0x05, 0, 0, 0, 0, 0, 0, 0]) = some (10, .running) := by decide
theorem test_loadAddr_T3 : stepReg 1 (loaded [0x02, 0x01, 0x10, 0, 0, 0, 0, 0, 0, 0, 0, 0, 0, 0, 0, 0,
    0x01, 0, 0, 0, 0, 0, 0, 0x80] 32) = some 0x8000000000000001 := by decide
theorem test_loadAddr_T5 : (after (step ((loaded [0x02, 0x01, 0x19, 0, 0, 0, 0, 0, 0, 0] 32).setReg 1 7))).map
    (fun t => (t.fault, t.reg 1, t.pc)) = some (some (.outOfBoundsAccess 25 0), 7, 10) := by decide
theorem test_storeAddr_T8 : (after (step ((loaded [0x03, 0x00, 0x10, 0, 0, 0, 0, 0, 0, 0] 32).setReg 0
    0x0102030405060708))).map (fun t => (t.readByte 16, t.readByte 17, t.readByte 23, t.readByte 24, t.status)) =
    some (0x08, 0x07, 0x01, 0x00, .running) := by decide
theorem test_storeAddr_T9 : (after (step ((loaded [0x03, 0x00, 0x1C, 0, 0, 0, 0, 0, 0, 0] 32).setReg 0
    0xFFFFFFFFFFFFFFFF))).map (fun t => (t.fault, t.readByte 28, t.readByte 31)) =
    some (some (.outOfBoundsAccess 28 0), 0, 0) := by decide
theorem test_move_T12 : stepReg 0 ((tight [0x04, 0x00, 0x0B]).setReg 3 9) = some 9 := by decide
theorem test_add_A1 : stepReg 2 (with01 0xFFFFFFFFFFFFFFFF 1 (tight [0x05, 0x02, 0x00, 0x01])) = some 0 := by decide
theorem test_add_A3 : stepReg 1 ((tight [0x05, 0x01, 0x01, 0x01]).setReg 1 21) = some 42 := by decide
theorem test_sub_A4 : stepReg 2 (with01 0 1 (tight [0x06, 0x02, 0x00, 0x01])) = some 0xFFFFFFFFFFFFFFFF := by decide
theorem test_sub_R121 : stepReg 2 (with01 10 3 (tight [0x06, 0x02, 0x00, 0x01])) = some 7 := by decide
theorem test_mul_A8 : stepReg 2 (with01 0xFFFFFFFFFFFFFFFF 0xFFFFFFFFFFFFFFFF (tight [0x07, 0x02, 0x00, 0x01])) =
    some 1 := by decide
theorem test_div_A12 : stepReg 2 (with01 0xFFFFFFFFFFFFFFFF 2 (tight [0x08, 0x02, 0x00, 0x01])) =
    some 0x7FFFFFFFFFFFFFFF := by decide
theorem test_div_A13 : (after (step ((with01 9 0 (tight [0x08, 0x02, 0x00, 0x01])).setReg 2 77))).map
    (fun t => (t.status, t.fault, t.reg 2, t.pc)) = some (.faulted, some (.divisionByZero 0), 77, 4) := by decide
theorem test_inc_A16 : stepReg 3 ((tight [0x09, 0x03]).setReg 3 0xFFFFFFFFFFFFFFFF) = some 0 := by decide
theorem test_dec_A17 : stepReg 3 (tight [0x0A, 0x03]) = some 0xFFFFFFFFFFFFFFFF := by decide
theorem test_and_L1 : stepReg 2 (with01 0xF0F0 0xFF00 (tight [0x0B, 0x02, 0x00, 0x01])) = some 0xF000 := by decide
theorem test_or_L2 : stepReg 2 (with01 0xF0F0 0xFF00 (tight [0x0D, 0x02, 0x00, 0x01])) = some 0xFFF0 := by decide
theorem test_xor_L3 : stepReg 2 (with01 0xF0F0 0xFF00 (tight [0x0E, 0x02, 0x00, 0x01])) = some 0x0FF0 := by decide
theorem test_not_L6 : stepReg 2 (tight [0x0C, 0x02]) = some 1 := by decide
theorem test_not_L7 : stepReg 2 ((tight [0x0C, 0x02]).setReg 2 5) = some 0 := by decide
theorem test_cmp_L9 : stepReg 4 (((tight [0x0F, 0x04, 0x02, 0x03]).setReg 2 121).setReg 3 121) = some 1 := by decide
theorem test_cmp_L10 : stepReg 4 (((tight [0x0F, 0x04, 0x02, 0x03]).setReg 2 121).setReg 3 122) = some 0 := by decide
theorem test_halt_C1 : stepEnd (tight [0x00]) = some (1, .halted) := by decide
theorem test_jump_C3 : stepEnd ((tight [0x10, 0x00]).setReg 0 0xFFFFFFFFFFFFFFFF) =
    some (0xFFFFFFFFFFFFFFFF, .running) := by decide
theorem test_jumpIfNz_C5 : stepEnd ((tight [0x11, 0x04, 0x05]).setReg 5 64) = some (3, .running) := by decide
theorem test_jumpIfNz_C6 : stepEnd (((tight [0x11, 0x04, 0x05]).setReg 4 0x8000000000000000).setReg 5 64) =
    some (64, .running) := by decide
theorem test_jumpIfZ_C7 : stepEnd ((tight [0x12, 0x04, 0x05]).setReg 5 64) = some (64, .running) := by decide
theorem test_jumpIfZ_C8 : stepEnd (((tight [0x12, 0x04, 0x05]).setReg 4 7).setReg 5 64) = some (3, .running) := by decide
theorem test_loop_C10 : (after (step (with01 3 30 (tight [0x13, 0x00, 0x01])))).map (fun t => (t.reg 0, t.pc)) =
    some (2, 30) := by decide
theorem test_loop_C13 : (after (step ((tight [0x13, 0x00, 0x00]).setReg 0 5))).map (fun t => (t.reg 0, t.pc)) =
    some (4, 4) := by decide
theorem test_trap_getc_P5 :
    (after (step { (tight [0x14, 0x00, 0x00]).setReg 0 1 with input := [0xFF, 7] })).map
      (fun t => (t.reg 0, t.input, t.pc, t.out)) = some (0xFF, [7], 3, []) := by decide
theorem test_trap_P2_P8 :
    (after (step (with01 0x141 0 (tight [0x14, 0x01, 0x00])))).map (fun t => t.out) = some [.byte 0x41] ∧
    (after (step (with01 65 256 (tight [0x14, 0x01, 0x00])))).map (fun t => (t.out, t.diag, t.pc)) =
      some ([], [{ number := 256, position := 0 }], 3) := by decide
theorem test_print_P10 : (after (step ((tight [0x15, 0x00]).setReg 0 0xFFFFFFFFFFFFFFFF))).map (fun t => t.out) =
    some [.dec 18446744073709551615] := by decide
theorem test_step_S1 : stepEnd { tight [0x00] with pc := 1 } = some (1, .halted) := by decide
theorem test_step_S4 : (after (step (tight [0x30]))).map (fun t => (t.fault, t.pc)) =
    some (some (.unknownOpcode 0x30 0), 1) := by decide
theorem test_step_S6_truncated : (after (step (tight [0x05, 0x02]))).map (fun t => (t.fault, t.pc)) =
    some (some (.truncatedInstruction 5 0), 1) := by decide
theorem test_step_S7_scratch_operands : stepReg 0 (loaded [0x01, 0x00, 0x05] 16) = some 5 := by decide
theorem test_reset_runs_a_table_word : (after (step (State.reset.withFetchWord 80 0x00000000000000050301))).map
    (fun t => (t.reg 3, t.pc)) = some (5, 10) := by decide
theorem test_reset_step_halts : stepEnd State.reset = some (0, .halted) := by decide
theorem test_decimal_digits : decimalDigits 19 18446744073709551615 =
    [1, 8, 4, 4, 6, 7, 4, 4, 0, 7, 3, 7, 0, 9, 5, 5, 1, 6, 1, 5] ∧ decimalDigits 19 0 = [0] := by decide

/-! ### Witnesses: concrete states and operands that meet the hypotheses of the statements -/

/-- The invariant of a constructed core, from its decidable clauses. -/
theorem inv_of {s : State} (h1 : s.mem.wf) (h2 : ∀ c ∈ s.mem, c.1 < s.memSize) (h3 : s.codeSize ≤ s.memSize)
    (h4 : s.memSize ≤ 2 ^ 64 - 1) (h5 : s.status = .running) (h6 : s.fault = none) (h7 : s.getcWait = false) : Inv s :=
  ⟨h1, h2, h3, h4, by simp [h5, h6], by simp [h7]⟩

theorem witness_eight_bytes : ([5, 0, 0, 0, 0, 0, 0, 0] : List Byte).length = 8 := by decide

theorem witness_RegisterByteSelectsModuloEight :
    catalog 0x08 = some (.rrr .div) ∧ (Entry.rrr Instr.div).format.operandBytes ≤ ([8, 255, 9] : List Byte).length :=
  ⟨rfl, by decide⟩

theorem witness_CanFetch : CanFetch (tight [0x00]) := ⟨rfl, by decide, by decide⟩

theorem witness_OpcodeByteAloneFixesTheLength :
    decode [0x09, 0x08] = .ok (.inc 0, []) ∧ decode [0x09, 0x03, 0x00] = .ok (.inc 3, [0x00]) := ⟨rfl, rfl⟩

theorem witness_memory_wf : (tight [0x09, 0x03]).mem.wf := by decide

theorem witness_StepRunsTheDecodedInstruction : (tight [0x09, 0x03]).status = .running ∧
    (tight [0x09, 0x03]).pc.toNat < (tight [0x09, 0x03]).codeSize ∧
    decode (tight [0x09, 0x03]).fetchWindow = .ok (.inc 3, []) := ⟨rfl, by decide, rfl⟩

/-- The opcode byte is the last byte of the program and the operand byte the last byte of memory. -/
theorem witness_StepRunsTheBytesAtPc : (loaded [0x09] 2).status = .running ∧
    (loaded [0x09] 2).pc.toNat < (loaded [0x09] 2).codeSize ∧
    (loaded [0x09] 2).pc.toNat + (Instr.inc 0).length ≤ (loaded [0x09] 2).memSize ∧
    ∀ k, (h : k < (encode (.inc 0)).length) →
      (loaded [0x09] 2).readByte ((loaded [0x09] 2).pc.toNat + k) = (encode (.inc 0))[k] :=
  ⟨rfl, by decide, by decide, by decide⟩

theorem witness_EndOfProgramHalts_at_code_size :
    ({ tight [0x00] with pc := 1 } : State).status = .running ∧
    ({ tight [0x00] with pc := 1 } : State).codeSize ≤ ({ tight [0x00] with pc := 1 } : State).pc.toNat :=
  ⟨rfl, by decide⟩

theorem witness_EndOfProgramHalts_by_halt : (tight [0x00]).status = .running ∧
    ∃ t, step (tight [0x00]) = .next t ∧ t.status = .halted := ⟨rfl, _, rfl, rfl⟩

/-- The clauses of the fixed order where they meet: `pc = code_size`, opcode 22, opcode 21 with its operand one byte
past memory, and opcode 21 with its operand the last byte of memory. -/
theorem witness_StepChecksInFixedOrder :
    (({ tight [0x15] with pc := 1 } : State).codeSize ≤ ({ tight [0x15] with pc := 1 } : State).pc.toNat) ∧
    (CanFetch (tight [0x16]) ∧ 22 ≤ (opcodeAt (tight [0x16])).toNat) ∧
    (CanFetch (tight [0x15]) ∧ (opcodeAt (tight [0x15])).toNat < 22 ∧ catalog (opcodeAt (tight [0x15])) =
      some (.r .print) ∧ (tight [0x15]).memSize < (tight [0x15]).pc.toNat + 1 + 1) ∧
    (CanFetch (tight [0x15, 0]) ∧ (opcodeAt (tight [0x15, 0])).toNat < 22 ∧ catalog (opcodeAt (tight [0x15, 0])) =
      some (.r .print) ∧ (tight [0x15, 0]).pc.toNat + 1 + 1 ≤ (tight [0x15, 0]).memSize) :=
  ⟨by decide, ⟨⟨rfl, by decide, by decide⟩, by decide⟩, ⟨⟨rfl, by decide, by decide⟩, by decide, rfl, by decide⟩,
    ⟨⟨rfl, by decide, by decide⟩, by decide, rfl, by decide⟩⟩

theorem witness_UnknownOpcodeFaults : CanFetch (tight [0x16]) ∧ 22 ≤ (opcodeAt (tight [0x16])).toNat :=
  ⟨⟨rfl, by decide, by decide⟩, by decide⟩

theorem witness_TruncatedInstructionFaults : CanFetch (tight [0x05, 0x02]) ∧
    catalog (opcodeAt (tight [0x05, 0x02])) = some (.rrr .add) ∧
    (tight [0x05, 0x02]).memSize < (tight [0x05, 0x02]).pc.toNat + 1 + (Entry.rrr Instr.add).format.operandBytes :=
  ⟨⟨rfl, by decide, by decide⟩, rfl, by decide⟩

theorem witness_StoppedCoreStaysStopped : Ended (tight [0x00]).halt := by simp [Ended]

theorem witness_StatusChangesOnlyOutOfRunning :
    (∃ t, step (tight [0x00]).halt = .next t ∧ (tight [0x00]).halt.status ≠ .running) ∧
    (∃ t, step (tight [0x16]) = .next t ∧ t.fault ≠ (tight [0x16]).fault) :=
  ⟨⟨_, rfl, by decide⟩, ⟨_, rfl, by decide⟩⟩

theorem witness_Inv : Inv (tight [0x09, 0x03]) := inv_of (by decide) (by decide) (by decide) (by decide) rfl rfl rfl

theorem witness_EveryStepIsAnswered : Inv (tight [0x16]) := inv_of (by decide) (by decide) (by decide) (by decide) rfl rfl rfl

/-- An image of one byte that fills its memory, and the largest capacity: the ends of the ranges R230 allows. -/
theorem witness_ConstructionGivesTheResetState :
    (1 ≤ ([0x00] : List Byte).length ∧ ([0x00] : List Byte).length ≤ 1 ∧ 1 ≤ 2 ^ 64 - 1) ∧
    (([0x00] : List Byte).length ≤ 2 ^ 64 - 1 ∧ 2 ^ 64 - 1 ≤ 2 ^ 64 - 1) := by decide

theorem witness_construct : ∃ s, State.construct [0x00] 1 = some s := ⟨_, rfl⟩

theorem witness_ConstructionRefusesBadLoads : State.construct [] 1 = none ∧ State.construct [0, 0] 1 = none ∧
    State.construct [0] (2 ^ 64) = none := ⟨rfl, rfl, rfl⟩

theorem witness_StepKeepsTheInvariant : Inv (tight [0x09, 0x03]) ∧ ∃ t, step (tight [0x09, 0x03]) = .next t :=
  ⟨witness_Inv, _, rfl⟩

/-- A run of the host and the core: a byte delivered, a Step, the end of the input reported. -/
theorem witness_Reaches : ∃ t, step ((tight [0x09, 0x03]).deliver 7) = .next t ∧
    Reaches (tight [0x09, 0x03]) t.endInput := ⟨_, rfl, .endInput (.step (.deliver .refl 7) rfl)⟩

/-- A core that waits in a GETC meets the invariant, its last clause included. -/
theorem witness_Inv_waiting : Inv ({ (tight [0x14, 0x00, 0x02]).setReg 0 1 with getcWait := true } : State) :=
  ⟨by decide, by decide, by decide, by decide, by decide, fun _ => ⟨0, 2, rfl, by decide⟩⟩

theorem witness_CodeAndMemorySizeAreConstant : ∃ t, step (tight [0x09, 0x03]) = .next t := ⟨_, rfl⟩

theorem witness_OnlyNamedRegistersChange :
    ∃ t, exec (.inc 3) (tight [0x09, 0x03]) = .next t ∧ t.reg 3 ≠ (tight [0x09, 0x03]).reg 3 := ⟨_, rfl, by decide⟩

theorem witness_OnlyStoreAddrChangesMemory :
    ((loaded [0x03, 0x00, 0x18, 0, 0, 0, 0, 0, 0, 0] 32).setReg 0 1).mem.wf ∧
    ∃ t, step ((loaded [0x03, 0x00, 0x18, 0, 0, 0, 0, 0, 0, 0] 32).setReg 0 1) = .next t ∧
      t.readByte 24 ≠ ((loaded [0x03, 0x00, 0x18, 0, 0, 0, 0, 0, 0, 0] 32).setReg 0 1).readByte 24 :=
  ⟨by decide, _, rfl, by decide⟩

theorem witness_OnlyJumpsLeaveTheSequence : ∃ t, exec (.jump 0) (tight [0x10, 0x00]) = .next t := ⟨_, rfl⟩

theorem witness_SequentialAdvanceNeverWraps : Inv (tight [0x09, 0x03]) ∧ (tight [0x09, 0x03]).fetch = .instr (.inc 3) :=
  ⟨witness_Inv, rfl⟩

/-- An unknown opcode, and a known one without operands, in the last byte of memory. -/
theorem witness_SequentialAdvanceNeverWraps_past_the_opcode :
    Inv (tight [0x16]) ∧ (tight [0x16]).fetch = .unknownOpcode 0x16 ∧
    Inv (tight [0x09]) ∧ (tight [0x09]).fetch = .truncated 0x09 :=
  ⟨witness_EveryStepIsAnswered, rfl, inv_of (by decide) (by decide) (by decide) (by decide) rfl rfl rfl, rfl⟩

theorem witness_OnlyPrintAndPutcEmit : ∃ t, step (tight [0x15, 0x00]) = .next t ∧ t.out ≠ [] := ⟨_, rfl, by decide⟩

theorem witness_OnlyThreeInstructionsFault :
    (∃ t, exec (.div 2 0 1) (tight [0x08, 2, 0, 1]) = .next t ∧ t.status = .faulted) ∧
    (∃ t, exec (.loadAddr 0 3) (loaded [0x00] 10) = .next t ∧ t.status = .faulted) ∧ (tight [0x08, 2, 0, 1]).status = .running :=
  ⟨⟨_, rfl, by decide⟩, ⟨_, rfl, by decide⟩, rfl⟩

/-- Each of the four conditions at its first value: opcode 22, one operand byte short, `addr + 8 = memory_size + 1`,
divisor 0; and the program fits its memory. -/
theorem witness_OnlyFourConditionsFault :
    stepEnd (tight [0x16]) = some (1, .faulted) ∧ stepEnd (tight [0x05, 1, 2]) = some (1, .faulted) ∧
    stepEnd (loaded [0x02, 0, 3, 0, 0, 0, 0, 0, 0, 0] 10) = some (10, .faulted) ∧
    stepEnd (tight [0x08, 2, 0, 1]) = some (4, .faulted) ∧
    (tight [0x16]).status = .running ∧ (tight [0x16]).codeSize ≤ (tight [0x16]).memSize := by decide

theorem witness_FaultsArePrecise : (tight [0x08, 2, 0, 1]).status = .running ∧
    ∃ t, step (tight [0x08, 2, 0, 1]) = .next t ∧ t.status = .faulted := ⟨rfl, _, rfl, by decide⟩

theorem witness_LoadWritesItsImmediate : ([0, 1, 2, 3, 4, 5, 6, 7] : List Byte).length = 8 ∧
    ([0, 1, 2, 3, 4, 5, 6, 7] : List Byte).length < 9 := by decide

/-- The highest legal address, `memory_size - 8`, and the first that faults, `memory_size - 7` (R101); memory is in
its canonical form. -/
theorem witness_bounds_of_a_data_access :
    (loaded [0x00] 32).mem.wf ∧ (24 : Word).toNat + 8 ≤ (loaded [0x00] 32).memSize ∧
    effectiveAddress 24 + 8 ≤ (loaded [0x00] 32).memSize ∧ (loaded [0x00] 32).memSize < (25 : Word).toNat + 8 ∧
    (loaded [0x00] 32).memSize < effectiveAddress 25 + 8 := by decide

theorem witness_ByteOrderIsLittleEndian : (0x03 : Byte) ∈ [(0x01 : Byte), 0x02, 0x03] := by decide

theorem witness_TopAddressesAlwaysFault :
    State.reset.memSize ≤ 2 ^ 64 - 1 ∧ 2 ^ 64 - 8 ≤ (0xFFFFFFFFFFFFFFF8 : Word).toNat := by decide

/-- A STORE_ADDR over the byte after it, at the last byte of the program, in a memory that ends with the word. -/
theorem witness_StoreIsSeenByTheNextFetch :
    Inv (loaded [0x03, 0x00, 0x0A, 0, 0, 0, 0, 0, 0, 0, 0x15] 18) ∧
    (loaded [0x03, 0x00, 0x0A, 0, 0, 0, 0, 0, 0, 0, 0x15] 18).status = .running ∧
    (10 : Word) = (loaded [0x03, 0x00, 0x0A, 0, 0, 0, 0, 0, 0, 0, 0x15] 18).pc + 10 ∧
    (10 : Word).toNat < (loaded [0x03, 0x00, 0x0A, 0, 0, 0, 0, 0, 0, 0, 0x15] 18).codeSize ∧
    (10 : Word).toNat + 8 ≤ (loaded [0x03, 0x00, 0x0A, 0, 0, 0, 0, 0, 0, 0, 0x15] 18).memSize ∧
    ((loaded [0x03, 0x00, 0x0A, 0, 0, 0, 0, 0, 0, 0, 0x15] 18).reg 0).extractLsb' 0 8 = 0 :=
  ⟨inv_of (by decide) (by decide) (by decide) (by decide) rfl rfl rfl, rfl, by decide, by decide, by decide, by decide⟩

theorem witness_DivDividesOrFaults : (tight [0x08, 2, 0, 1]).reg 1 = 0 ∧ (with01 7 1 (tight [0x08, 2, 0, 1])).reg 1 ≠ 0 := by
  decide

theorem witness_LoopCountsDownAndJumps : (tight [0x13, 0, 1]).reg 0 = 0 ∧ (with01 1 30 (tight [0x13, 0, 1])).reg 0 ≠ 0 := by
  decide

theorem witness_JumpPastTheProgramHaltsNext : ((tight [0x10, 0x00]).setReg 0 2).status = .running ∧
    ((tight [0x10, 0x00]).setReg 0 2).codeSize ≤ (((tight [0x10, 0x00]).setReg 0 2).reg 0).toNat := by decide

/-- The conditional transfers, condition in register 1 and target, at `code_size` itself, in register 0; and a LOOP of
one register, whose decremented counter is `code_size`. -/
theorem witness_JumpPastTheProgramHaltsNext_taken :
    (with01 3 1 (tight [0x11, 1, 0])).codeSize ≤ ((with01 3 1 (tight [0x11, 1, 0])).reg 0).toNat ∧
    (with01 3 1 (tight [0x11, 1, 0])).reg 1 ≠ 0 ∧ (with01 3 0 (tight [0x12, 1, 0])).reg 1 = 0 ∧
    (with01 4 0 (tight [0x13, 0, 0])).reg 0 ≠ 0 ∧
    (with01 4 0 (tight [0x13, 0, 0])).codeSize ≤ ((with01 4 0 (tight [0x13, 0, 0])).reg 0 - 1).toNat := by decide

theorem witness_trap_numbers : (with01 65 0 (tight [0x14, 1, 0])).reg 1 = 0 ∧ (with01 65 1 (tight [0x14, 1, 0])).reg 1 = 1 ∧
    2 ≤ ((with01 65 2 (tight [0x14, 1, 0])).reg 1).toNat := by decide

theorem witness_GetcTakesTheNextByte :
    ({ with01 1 0 (tight [0x14, 0, 2]) with input := [121] } : State).reg 0 = 1 ∧
    ({ with01 1 0 (tight [0x14, 0, 2]) with input := [121] } : State).input = 121 :: [] := by decide

theorem witness_GetcWithoutInputWaits : (with01 1 0 (tight [0x14, 0, 2])).reg 0 = 1 ∧
    (with01 1 0 (tight [0x14, 0, 2])).input = [] ∧ (with01 1 0 (tight [0x14, 0, 2])).inputEnded = false ∧
    (with01 1 0 (tight [0x14, 0, 2])).endInput.reg 0 = 1 ∧ (with01 1 0 (tight [0x14, 0, 2])).endInput.input = [] ∧
    (with01 1 0 (tight [0x14, 0, 2])).endInput.inputEnded = true := by decide

theorem witness_GetcWaitHoldsUntilDelivery :
    (with01 1 0 (tight [0x14, 0, 2])).wait.getcWait = true ∧
    (with01 1 0 (tight [0x14, 0, 2])).wait.fetch = .instr (.trap 0 2) ∧
    (with01 1 0 (tight [0x14, 0, 2])).wait.reg 0 = 1 ∧ (with01 1 0 (tight [0x14, 0, 2])).wait.input = [] ∧
    (with01 1 0 (tight [0x14, 0, 2])).wait.inputEnded = false := ⟨rfl, rfl, by decide, rfl, rfl⟩

theorem witness_DiagnosticLogIsNeverRead : ∃ t, step (with01 65 7 (tight [0x14, 1, 0])) = .next t ∧ t.diag ≠ [] :=
  ⟨_, rfl, by decide⟩

end Sys2Proof.Tests
end

namespace Sys2Proof.StateProofs

open Sys2Proof Machine

/-! ### Register-operand bytes (10_state.md R22) -/

/-- `b mod 8` is the number in the three low bits of the register byte. -/
theorem reg_val_eq_low_bits (b : Byte) : (reg b).val = (b.extractLsb' 0 3).toNat := by
  rw [reg_val, BitVec.extractLsb'_toNat, Nat.shiftRight_zero]

/-- A known opcode whose operand bytes are all there decodes. The hypotheses exclude the decoder's two refusals and
neither reads the value of an operand byte (R22, R67). -/
theorem decode_ok_of_operandBytes_le {op : Byte} {e : Entry} {bs : List Byte} (hc : catalog op = some e)
    (hlen : e.format.operandBytes ≤ bs.length) : ∃ i rest, decode (op :: bs) = .ok (i, rest) := by
  rcases decode_cases op bs with ⟨hnone, -⟩ | ⟨e', hc', hshort, -⟩ | ⟨-, i, rest, -, -, -, hd⟩
  · rw [hc] at hnone
    cases hnone
  · obtain rfl : e = e' := Option.some.inj (hc.symm.trans hc')
    omega
  · exact ⟨i, rest, hd⟩

/-- Settles O1: the three low bits are `reg_val_eq_low_bits`; that nothing is refused is
`decode_ok_of_operandBytes_le`. -/
theorem registerByteSelectsModuloEight : Obligations.RegisterByteSelectsModuloEight :=
  ⟨fun b _ => ⟨reg_val b, reg_val_eq_low_bits b, rfl⟩, fun _ _ _ => decode_ok_of_operandBytes_le⟩

/-! ### LOAD and the registers (10_state.md R23) -/

/-- What a construction can answer: the image is loadable, and the state is the reset state with the image in memory
and the two sizes set (R230, R231). -/
theorem construct_eq_some_iff (image : List Byte) (n : Nat) (s : State) :
    State.construct image n = some s ↔ WellFormed.loadable image n = true ∧
      s = { State.reset with mem := Memory.writeBytes [] 0 image, codeSize := image.length, memSize := n } := by
  rw [State.construct, Option.ite_none_right_eq_some, Option.some.injEq, @eq_comm _ s]

/-- A construction leaves every register as reset leaves it. -/
theorem construct_reg {image : List Byte} {n : Nat} {s : State} (h : State.construct image n = some s) (r : RegIx) :
    s.reg r = State.reset.reg r := by
  obtain ⟨-, rfl⟩ := (construct_eq_some_iff image n s).mp h
  rfl

/-- Settles O16: reset zeroes the register file and a construction keeps it. -/
theorem registersAreZeroAtReset : Obligations.RegistersAreZeroAtReset :=
  ⟨State.reset_reg, fun _ _ _ h r => (construct_reg h r).trans (State.reset_reg r)⟩

end Sys2Proof.StateProofs

namespace Sys2Proof.MemoryProofs

open Sys2Proof Machine Safety

/-! ### An immediate as the decoder reads it (20_memory.md R43, 30_encoding.md R64) -/

/-- The recursive value of a byte sequence is the sum of rule R9, over as many bytes as there are. -/
theorem leValue_eq_sum (bs : List Byte) :
    leValue bs = ∑ k ∈ Finset.range bs.length, (bs.getD k 0).toNat * 2 ^ (8 * k) := by
  induction bs with
  | nil => rfl
  | cons b bs ih =>
    have shift (k : Nat) : 2 ^ (8 * (k + 1)) = 256 * 2 ^ (8 * k) := by rw [Nat.mul_add, Nat.pow_add, Nat.mul_comm]
    rw [List.length_cons, Finset.sum_range_succ']
    simp only [leValue, ih, List.getD_cons_succ, List.getD_cons_zero, shift, Finset.mul_sum, Nat.mul_left_comm 256]
    omega

/-- Eight immediate bytes stand for the sum of rule R9. -/
theorem imm64_toNat_eq_leSum {bs : List Byte} (h : bs.length = 8) : (imm64 bs).toNat = leSum (bs.getD · 0) := by
  rw [imm64_toNat bs h, leValue_eq_sum, h, leSum]

/-- The decoder on an opcode of format RI: the register byte, then the eight immediate bytes, whatever follows. -/
theorem decode_of_ri {op : Byte} {mk : RegIx → Word → Instr} (hc : catalog op = some (.ri mk)) (r1 : Byte)
    {bs : List Byte} (rest : List Byte) (h : bs.length = 8) :
    decode (op :: r1 :: (bs ++ rest)) = .ok (mk (reg r1) (imm64 bs), rest) := by
  match bs, h with
  | [_, _, _, _, _, _, _, _], _ => simp only [decode, hc, List.cons_append, List.nil_append, readOperands]

/-! ### LOAD_ADDR and STORE_ADDR inside memory (R101, R102) -/

/-- An in-bounds LOAD_ADDR reads the word at its address. -/
theorem exec_loadAddr_of_inBounds {s : State} {addr : Word} (h : s.inBounds addr = true) (rd : RegIx) :
    exec (.loadAddr rd addr) s = .next ((s.past .ri).setReg rd (s.loadWord addr)) :=
  if_pos h

/-- An in-bounds STORE_ADDR writes the source register at its address. -/
theorem exec_storeAddr_of_inBounds {s : State} {addr : Word} (h : s.inBounds addr = true) (rs : RegIx) :
    exec (.storeAddr rs addr) s = .next ((s.past .ri).storeWord addr (s.reg rs)) :=
  if_pos h

/-- Byte `k` of a stored word is its bits `8k+7:8k` (R43). -/
theorem readByte_storeWord {s : State} (hm : s.mem.wf) (addr v : Word) {k : Nat} (hk : k < 8) :
    (s.storeWord addr v).readByte (addr.toNat + k) = v.extractLsb' (8 * k) 8 := by
  rw [State.readByte, State.storeWord_mem, effectiveAddress, Memory.read_write64 hm, if_pos ⟨by omega, by omega⟩,
    Nat.add_sub_cancel_left]

/-! ### Byte order -/

/-- Settles O34: each of the three opcodes has an entry of format RI, so `decode_of_ri` reads its immediate; the word
read by a load is `Memory.read64_toNat`, the bytes a store leaves are `readByte_storeWord`. -/
theorem byteOrderIsLittleEndian : Obligations.ByteOrderIsLittleEndian := by
  refine ⟨fun op r1 bs rest hop hbs => ⟨imm64 bs, imm64_toNat_eq_leSum hbs, ?_⟩, Memory.read64_toNat,
    fun r addr s hin => ?_⟩
  · simp only [List.mem_cons, List.not_mem_nil, or_false] at hop
    rcases hop with rfl | rfl | rfl
    · exact .inl (decode_of_ri rfl r1 rest hbs)
    · exact .inr (.inl (decode_of_ri rfl r1 rest hbs))
    · exact .inr (.inr (decode_of_ri rfl r1 rest hbs))
  · have hb : s.inBounds addr = true := (State.inBounds_iff s addr).mpr hin
    exact ⟨⟨_, exec_loadAddr_of_inBounds hb r, State.reg_setReg_self _ r _⟩,
      fun hm => ⟨_, exec_storeAddr_of_inBounds hb r, fun _ hk => readByte_storeWord (s := s.past .ri) hm addr _ hk⟩⟩

end Sys2Proof.MemoryProofs

namespace Sys2Proof.EncodingProofs

open Sys2Proof Machine Safety Laws

/-! ### The decoder is total (30_encoding.md R69) -/

/-- Where there is an opcode byte the fetch answers an instruction or one of the decoder's two faults. -/
theorem fetch_total {s : State} (h : CanFetch s) :
    (∃ i, s.fetch = .instr i) ∨ (∃ op, s.fetch = .unknownOpcode op) ∨ (∃ op, s.fetch = .truncated op) := by
  rcases State.fetch_cases h with ⟨-, hf⟩ | ⟨-, -, -, hf⟩ | ⟨-, i, -, -, -, -, -, -, hf⟩
  · exact .inr (.inl ⟨_, hf⟩)
  · exact .inr (.inr ⟨_, hf⟩)
  · exact .inl ⟨i, hf⟩

/-! ### The decoder inverts the encoder (30_encoding.md R69) -/

/-- The decoder reads every instruction's bytes back and leaves the bytes after them. Each instruction has its own
lemma in Laws/PerInstr.lean. -/
theorem decode_encode_append (i : Instr) (rest : List Byte) : decode (encode i ++ rest) = .ok (i, rest) := by
  cases i with
  | halt => exact RoundTrip.halt rest
  | load rd imm => exact RoundTrip.load rd imm rest
  | loadAddr rd addr => exact RoundTrip.loadAddr rd addr rest
  | storeAddr rs addr => exact RoundTrip.storeAddr rs addr rest
  | move rd rs => exact RoundTrip.move rd rs rest
  | add rd ra rb => exact RoundTrip.add rd ra rb rest
  | sub rd ra rb => exact RoundTrip.sub rd ra rb rest
  | mul rd ra rb => exact RoundTrip.mul rd ra rb rest
  | div rd ra rb => exact RoundTrip.div rd ra rb rest
  | inc rd => exact RoundTrip.inc rd rest
  | dec rd => exact RoundTrip.dec rd rest
  | and rd ra rb => exact RoundTrip.and rd ra rb rest
  | not rd => exact RoundTrip.not rd rest
  | or rd ra rb => exact RoundTrip.or rd ra rb rest
  | xor rd ra rb => exact RoundTrip.xor rd ra rb rest
  | cmp rd ra rb => exact RoundTrip.cmp rd ra rb rest
  | jump rt => exact RoundTrip.jump rt rest
  | jumpIfNz rc rt => exact RoundTrip.jumpIfNz rc rt rest
  | jumpIfZ rc rt => exact RoundTrip.jumpIfZ rc rt rest
  | loop rc rt => exact RoundTrip.loop rc rt rest
  | trap rn rv => exact RoundTrip.trap rn rv rest
  | print rs => exact RoundTrip.print rs rest

/-! ### Programs (30_encoding.md R68) -/

/-- An image that begins with an instruction decodes to it and to what the rest decodes to. -/
theorem decodeProgram_of_decode {bs rest : List Byte} {i : Instr} (h : decode bs = .ok (i, rest)) (n : Nat) :
    decodeProgram (n + 1) bs = (decodeProgram n rest).map (i :: ·) := by
  cases bs with
  | nil => cases h
  | cons b bs => simp only [decodeProgram, h]

/-- The image of a program decodes to the program, read with as much fuel as it has instructions. -/
theorem decodeProgram_encodeProgram (p : List Instr) : decodeProgram p.length (encodeProgram p) = some p := by
  induction p with
  | nil => rfl
  | cons i p ih =>
    have hd : decode (encodeProgram (i :: p)) = .ok (i, encodeProgram p) := decode_encode_append i (encodeProgram p)
    rw [List.length_cons, decodeProgram_of_decode hd, ih, Option.map_some]

/-- Settles O4: totality is the case split of the fetch, and a program's round trip is an induction over its
instructions on the round trip of one instruction followed by any bytes. -/
theorem decodingIsTotalAndInvertsEncoding : Obligations.DecodingIsTotalAndInvertsEncoding :=
  ⟨fun _ => fetch_total, decode_encode_append, decodeProgram_encodeProgram⟩

end Sys2Proof.EncodingProofs

namespace Sys2Proof.StepProofs

open Sys2Proof Machine

/-! ### The status register after an instruction (40_step.md R86) -/

/-- An instruction halts the core only as HALT; otherwise it faults the core or leaves the status register as it
was. -/
theorem effect_status {i : Instr} {s t : State} (h : Effect i s t) :
    (i = .halt ∧ t.status = .halted) ∨ t.status = .faulted ∨ t.status = s.status := by
  cases h with
  | halts hi => exact .inl ⟨hi, rfl⟩
  | outOfBounds | divByZero => exact .inr (.inl rfl)
  | writesReg | stores | fallsThrough | jumps | loops | prints | putc | unknownTrap | getcByte | getcWaits | getcKeeps
  | getcStores => exact .inr (.inr rfl)

/-- An instruction that makes a Running core Halted is HALT. -/
theorem eq_halt_of_effect {i : Instr} {s t : State} (h : Effect i s t) (hr : s.status = .running)
    (ht : t.status = .halted) : i = .halt := by
  rcases effect_status h with ⟨hi, -⟩ | hf | hk
  · exact hi
  · cases ht.symm.trans hf
  · cases ht.symm.trans (hk.trans hr)

/-! ### The end of the program (40_step.md R81) -/

/-- A Step that makes a Running core Halted found the end of the program or ran HALT: the two decode faults leave it
Faulted, and of the instructions only HALT halts. -/
theorem endOfProgram_or_halt_of_step {s t : State} (hr : s.status = .running) (h : step s = .next t)
    (ht : t.status = .halted) : s.codeSize ≤ s.pc.toNat ∨ s.fetch = .instr .halt := by
  rcases step_cases h with ⟨hstopped, -⟩ | ⟨-, hend, -⟩ | ⟨op, -, -, rfl⟩ | ⟨op, -, -, rfl⟩ | ⟨i, -, hf, -, he⟩
  · exact absurd hr hstopped
  · exact .inl hend
  · cases ht
  · cases ht
  · exact .inr (eq_halt_of_effect he hr ht ▸ hf)

/-- Settles O9: the end of the program is `step_of_endOfProgram`, and the converse splits over what a Step can do. -/
theorem endOfProgramHalts : Obligations.EndOfProgramHalts :=
  ⟨fun _ => step_of_endOfProgram, fun _ _ => endOfProgram_or_halt_of_step⟩

end Sys2Proof.StepProofs

namespace Sys2Proof.DataTransferProofs

open Sys2Proof Machine Safety

/-! ### The decoder on an opcode of a known format (30_encoding.md R62, R84) -/

/-- A known opcode with fewer bytes after it than its format has is truncated. -/
theorem decode_of_short {op : Byte} {e : Entry} (hc : catalog op = some e) {bs : List Byte}
    (h : bs.length < e.format.operandBytes) : decode (op :: bs) = .error (.truncated op) := by
  simp only [decode, hc, (readOperands_eq_none_iff e bs).mpr h]

/-- The decoder on an opcode of format RR: two register bytes, whatever follows. -/
theorem decode_of_rr {op : Byte} {mk : RegIx → RegIx → Instr} (hc : catalog op = some (.rr mk)) (r1 r2 : Byte)
    (rest : List Byte) : decode (op :: r1 :: r2 :: rest) = .ok (mk (reg r1) (reg r2), rest) := by
  simp only [decode, hc, readOperands]

/-! ### An instruction whose whole effect is a register write -/

/-- The frame of a register write after the advance past an instruction. -/
theorem onlyReg_setReg_past (s : State) (f : Format) (rd : RegIx) (v : Word) :
    OnlyReg rd s ((s.past f).setReg rd v) where
  regs := fun r hr => State.reg_setReg_other (s.past f) rd r v hr
  mem := fun _ => rfl
  rest := ⟨rfl, rfl, rfl, rfl, rfl, rfl, rfl, rfl, rfl⟩

/-- An instruction that moves `pc` past itself and then writes `v` to `rd` meets the statement of a register write. -/
theorem execWritesReg_of_exec {i : Instr} {s : State} {rd : RegIx} {v : Word}
    (h : exec i s = .next ((s.past i.format).setReg rd v)) : ExecWritesReg i rd v.toNat i.length s :=
  ⟨_, h, congrArg BitVec.toNat (State.reg_setReg_self (s.past i.format) rd v), rfl, onlyReg_setReg_past s i.format rd v⟩

/-- What LOAD does at every state (R100). -/
theorem exec_load (rd : RegIx) (imm : Word) (s : State) :
    exec (.load rd imm) s = .next ((s.past .ri).setReg rd imm) := rfl

/-- What MOVE does at every state (R103). -/
theorem exec_move (rd rs : RegIx) (s : State) :
    exec (.move rd rs) s = .next ((s.past .rr).setReg rd (s.reg rs)) := rfl

/-! ### LOAD and MOVE (R100, R103) -/

/-- Settles O30: LOAD has format RI, so `decode_of_ri` reads its operands and `decode_of_short` refuses fewer than
nine; its effect is a register write. -/
theorem loadWritesItsImmediate : Obligations.LoadWritesItsImmediate :=
  ⟨fun r1 bs rest hbs =>
      ⟨imm64 bs, MemoryProofs.imm64_toNat_eq_leSum hbs, MemoryProofs.decode_of_ri rfl r1 rest hbs⟩,
    fun _ hshort => decode_of_short (e := .ri .load) rfl hshort,
    fun rd imm s => execWritesReg_of_exec (exec_load rd imm s)⟩

/-- Settles O33: MOVE has format RR, and its effect is a register write of the source's value. -/
theorem moveCopiesItsSource : Obligations.MoveCopiesItsSource :=
  ⟨decode_of_rr rfl, fun rd rs s => execWritesReg_of_exec (exec_move rd rs s)⟩

end Sys2Proof.DataTransferProofs

namespace Sys2Proof.ArithmeticProofs

open Sys2Proof Machine DataTransferProofs

/-! ### The ALU's results as natural numbers (42_arithmetic.md R120 to R122) -/

/-- The sum modulo 2^64 (R120). -/
theorem aluAdd_toNat (a b : Word) : (aluAdd a b).toNat = (a.toNat + b.toNat) % 2 ^ 64 := BitVec.toNat_add a b

/-- The difference modulo 2^64, taken in the integers: a borrow adds 2^64 (R121). -/
theorem aluSub_toNat (a b : Word) : (aluSub a b).toNat = (((a.toNat : Int) - b.toNat) % 2 ^ 64).toNat := by
  have hb : b.toNat < 2 ^ 64 := b.isLt
  rw [aluSub, BitVec.toNat_sub]
  omega

/-- The low 64 bits of the product (R122). -/
theorem aluMul_toNat (a b : Word) : (aluMul a b).toNat = (a.toNat * b.toNat) % 2 ^ 64 := BitVec.toNat_mul a b

/-! ### ADD, SUB and MUL (42_arithmetic.md R120 to R122) -/

/-- The decoder on an opcode of format RRR: three register bytes, whatever follows. -/
theorem decode_of_rrr {op : Byte} {mk : RegIx → RegIx → RegIx → Instr} (hc : catalog op = some (.rrr mk))
    (r1 r2 r3 : Byte) (rest : List Byte) :
    decode (op :: r1 :: r2 :: r3 :: rest) = .ok (mk (reg r1) (reg r2) (reg r3), rest) := by
  simp only [decode, hc, readOperands]

/-- What ADD does at every state: both sources are read from `s`, before the write (R120). -/
theorem exec_add (rd ra rb : RegIx) (s : State) :
    exec (.add rd ra rb) s = .next ((s.past .rrr).setReg rd (aluAdd (s.reg ra) (s.reg rb))) := rfl

/-- What SUB does at every state: both sources are read from `s`, before the write (R121). -/
theorem exec_sub (rd ra rb : RegIx) (s : State) :
    exec (.sub rd ra rb) s = .next ((s.past .rrr).setReg rd (aluSub (s.reg ra) (s.reg rb))) := rfl

/-- What MUL does at every state: both sources are read from `s`, before the write (R122). -/
theorem exec_mul (rd ra rb : RegIx) (s : State) :
    exec (.mul rd ra rb) s = .next ((s.past .rrr).setReg rd (aluMul (s.reg ra) (s.reg rb))) := rfl

/-- Settles O38: the three have format RRR, so `decode_of_rrr` reads their operands; each is a register write of the
ALU's result, whose value is the operation modulo 2^64. -/
theorem addSubMulWrap : Obligations.AddSubMulWrap := by
  refine ⟨fun r1 r2 r3 rest =>
      ⟨decode_of_rrr rfl r1 r2 r3 rest, decode_of_rrr rfl r1 r2 r3 rest, decode_of_rrr rfl r1 r2 r3 rest⟩,
    fun rd ra rb s => ⟨?_, ?_, ?_⟩⟩
  · rw [← aluAdd_toNat]
    exact execWritesReg_of_exec (exec_add rd ra rb s)
  · rw [← aluSub_toNat]
    exact execWritesReg_of_exec (exec_sub rd ra rb s)
  · rw [← aluMul_toNat]
    exact execWritesReg_of_exec (exec_mul rd ra rb s)

end Sys2Proof.ArithmeticProofs

namespace Sys2Proof.LogicProofs

open Sys2Proof Machine Safety DataTransferProofs ArithmeticProofs

/-! ### AND, OR and XOR (43_logic_compare.md R140, R142, R143) -/

/-- Bit `k` of the ALU's AND (R140). -/
theorem aluAnd_getLsbD (a b : Word) (k : Nat) : (aluAnd a b).getLsbD k = (a.getLsbD k && b.getLsbD k) :=
  BitVec.getLsbD_and

/-- Bit `k` of the ALU's OR (R142). -/
theorem aluOr_getLsbD (a b : Word) (k : Nat) : (aluOr a b).getLsbD k = (a.getLsbD k || b.getLsbD k) :=
  BitVec.getLsbD_or

/-- Bit `k` of the ALU's exclusive OR (R143). -/
theorem aluXor_getLsbD (a b : Word) (k : Nat) : (aluXor a b).getLsbD k = (a.getLsbD k ^^ b.getLsbD k) :=
  BitVec.getLsbD_xor

/-- What AND does at every state: both sources are read from `s`, before the write (R140). -/
theorem exec_and (rd ra rb : RegIx) (s : State) :
    exec (.and rd ra rb) s = .next ((s.past .rrr).setReg rd (aluAnd (s.reg ra) (s.reg rb))) := rfl

/-- What OR does at every state: both sources are read from `s`, before the write (R142). -/
theorem exec_or (rd ra rb : RegIx) (s : State) :
    exec (.or rd ra rb) s = .next ((s.past .rrr).setReg rd (aluOr (s.reg ra) (s.reg rb))) := rfl

/-- What XOR does at every state: both sources are read from `s`, before the write (R143). -/
theorem exec_xor (rd ra rb : RegIx) (s : State) :
    exec (.xor rd ra rb) s = .next ((s.past .rrr).setReg rd (aluXor (s.reg ra) (s.reg rb))) := rfl

/-- An instruction that moves `pc` past itself and then writes a word to `rd` leaves that word's bits there and changes
nothing else. -/
theorem exec_writes_bits {i : Instr} {s : State} {rd : RegIx} {v : Word} {bit : Nat → Bool}
    (h : exec i s = .next ((s.past i.format).setReg rd v)) (hbit : ∀ k, v.getLsbD k = bit k) :
    ∃ t, exec i s = .next t ∧ t.pc = s.pc + BitVec.ofNat 64 i.length ∧ OnlyReg rd s t ∧
      ∀ k < 64, (t.reg rd).getLsbD k = bit k :=
  ⟨_, h, rfl, onlyReg_setReg_past s i.format rd v,
    fun k _ => by rw [State.reg_setReg_self, hbit]⟩

/-- Settles O41: the three have format RRR, so `decode_of_rrr` reads their operands; each is a register write of the
ALU's result, whose bits are the operation on the sources' bits. -/
theorem andOrXorAreBitwise : Obligations.AndOrXorAreBitwise :=
  ⟨fun r1 r2 r3 rest =>
      ⟨decode_of_rrr rfl r1 r2 r3 rest, decode_of_rrr rfl r1 r2 r3 rest, decode_of_rrr rfl r1 r2 r3 rest⟩,
    fun rd ra rb s =>
      ⟨exec_writes_bits (exec_and rd ra rb s) (aluAnd_getLsbD _ _),
        exec_writes_bits (exec_or rd ra rb s) (aluOr_getLsbD _ _),
        exec_writes_bits (exec_xor rd ra rb s) (aluXor_getLsbD _ _)⟩⟩

/-! ### NOT and CMP (43_logic_compare.md R141, R144) -/

/-- A truth value in a register counts 1 or 0. -/
theorem boolWord_toNat (b : Bool) : (boolWord b).toNat = if b then 1 else 0 := by
  cases b <;> rfl

/-- Logical negation is the test against zero (R141). -/
theorem aluNot_toNat (a : Word) : (aluNot a).toNat = if a = 0 then 1 else 0 := by
  simp only [aluNot, boolWord_toNat, isZero_iff]

/-- The comparison is equality of the full 64-bit values (R144). -/
theorem aluCmp_toNat (a b : Word) : (aluCmp a b).toNat = if a.toNat = b.toNat then 1 else 0 := by
  simp only [aluCmp, boolWord_toNat, beq_iff_eq, BitVec.toNat_inj]

/-- The decoder on an opcode of format R: one register byte, whatever follows. -/
theorem decode_of_r {op : Byte} {mk : RegIx → Instr} (hc : catalog op = some (.r mk)) (r1 : Byte) (rest : List Byte) :
    decode (op :: r1 :: rest) = .ok (mk (reg r1), rest) := by
  simp only [decode, hc, readOperands]

/-- What NOT does at every state: its register is source and destination (R141). -/
theorem exec_not (rd : RegIx) (s : State) :
    exec (.not rd) s = .next ((s.past .r).setReg rd (aluNot (s.reg rd))) := rfl

/-- What CMP does at every state: both sources are read from `s`, before the write (R144). -/
theorem exec_cmp (rd ra rb : RegIx) (s : State) :
    exec (.cmp rd ra rb) s = .next ((s.past .rrr).setReg rd (aluCmp (s.reg ra) (s.reg rb))) := rfl

/-- Settles O42: NOT has format R and CMP format RRR; each is a register write of the ALU's result, which is 1 or 0. -/
theorem notAndCmpWriteOneOrZero : Obligations.NotAndCmpWriteOneOrZero := by
  refine ⟨fun r1 r2 r3 rest => ⟨decode_of_r rfl r1 rest, decode_of_rrr rfl r1 r2 r3 rest⟩, fun rd ra rb s => ⟨?_, ?_⟩⟩
  · rw [← aluNot_toNat]
    exact execWritesReg_of_exec (exec_not rd s)
  · rw [← aluCmp_toNat]
    exact execWritesReg_of_exec (exec_cmp rd ra rb s)

end Sys2Proof.LogicProofs

namespace Sys2Proof.ControlProofs

open Sys2Proof Machine Safety DataTransferProofs LogicProofs

/-! ### An instruction whose whole effect is on `pc` -/

/-- An instruction whose effect is to put `a` into `pc` meets the statement of a control transfer: the frame is
`State.jumpTo`'s. -/
theorem execSetsPc_of_exec {i : Instr} {s : State} {a : Word} (h : exec i s = .next (s.jumpTo a)) :
    ExecSetsPc i a s :=
  ⟨_, h, rfl, { regs := fun _ => rfl, mem := fun _ => rfl, rest := ⟨rfl, rfl, rfl, rfl, rfl, rfl, rfl, rfl, rfl⟩ }⟩

/-- The later of two moves of `pc` stands. -/
@[simp] theorem jumpTo_jumpTo (s : State) (a b : Word) : (s.jumpTo a).jumpTo b = s.jumpTo b := rfl

/-- The sequential advance past an instruction of format RR is a move of `pc` by three bytes (R62, R85). -/
theorem past_rr_eq_jumpTo (s : State) : s.past .rr = s.jumpTo (s.pc + 3) := rfl

/-- The zero test is of the full 64-bit value. -/
theorem isZero_iff_toNat (v : Word) : isZero v = true ↔ v.toNat = 0 :=
  (isZero_iff v).trans BitVec.toNat_eq

/-! ### JUMP, JUMP_IF_NZ and JUMP_IF_Z (44_control.md R161 to R163) -/

/-- What JUMP does at every state (R161). -/
theorem exec_jump (rt : RegIx) (s : State) : exec (.jump rt) s = .next (s.jumpTo (s.reg rt)) := rfl

/-- What JUMP_IF_NZ does at every state (R162). -/
theorem exec_jumpIfNz (rc rt : RegIx) (s : State) :
    exec (.jumpIfNz rc rt) s = .next (s.jumpTo (if (s.reg rc).toNat ≠ 0 then s.reg rt else s.pc + 3)) := by
  simp only [exec, execJumpIfNz, isZero_iff_toNat, past_rr_eq_jumpTo, jumpTo_jumpTo]
  by_cases hz : (s.reg rc).toNat = 0
  · rw [if_pos hz, if_neg (not_not_intro hz)]
  · rw [if_neg hz, if_pos hz]

/-- What JUMP_IF_Z does at every state (R163). -/
theorem exec_jumpIfZ (rc rt : RegIx) (s : State) :
    exec (.jumpIfZ rc rt) s = .next (s.jumpTo (if (s.reg rc).toNat = 0 then s.reg rt else s.pc + 3)) := by
  simp only [exec, execJumpIfZ, isZero_iff_toNat, past_rr_eq_jumpTo, jumpTo_jumpTo]
  by_cases hz : (s.reg rc).toNat = 0
  · rw [if_pos hz, if_pos hz]
  · rw [if_neg hz, if_neg hz]

/-- Settles O44: JUMP has format R and the conditional jumps format RR; each only moves `pc`, to the target or past
itself by the zero test of its condition register. -/
theorem jumpsSetPcToTheirTarget : Obligations.JumpsSetPcToTheirTarget :=
  ⟨fun r1 r2 rest => ⟨decode_of_r rfl r1 rest, decode_of_rr rfl r1 r2 rest, decode_of_rr rfl r1 r2 rest⟩,
    fun rc rt s =>
      ⟨execSetsPc_of_exec (exec_jump rt s), execSetsPc_of_exec (exec_jumpIfNz rc rt s),
        execSetsPc_of_exec (exec_jumpIfZ rc rt s)⟩⟩

end Sys2Proof.ControlProofs

namespace Sys2Proof.TrapPrintProofs

open Sys2Proof Machine LogicProofs

/-! ### An instruction whose whole effect is an output event -/

/-- The frame of an emission after the advance past an instruction: only `pc` and OUT differ. -/
theorem emit_past_eq (s : State) (f : Format) (e : OutEvent) :
    (s.past f).emit e = { s with pc := s.pc + BitVec.ofNat 64 f.length, out := s.out ++ [e] } := rfl

/-! ### PUTC (45_trap_print.md R181) -/

/-- The byte that PUTC emits is bits 7:0 of its data register. -/
theorem putc_eq_emit_lowByte (rv : RegIx) (s : State) :
    putc rv s = (s.past .rr).emit (.byte ((s.reg rv).extractLsb' 0 8)) := by
  rw [putc, BitVec.setWidth_eq_extractLsb' (by decide)]

/-- What TRAP does where its trap register holds the number of PUTC (R180). -/
theorem exec_trap_of_putc {rn : RegIx} {s : State} (h : s.reg rn = trapPutc) (rv : RegIx) :
    exec (.trap rn rv) s = .next (putc rv s) :=
  if_pos h

/-- Settles O47: trap number 0 selects PUTC, which emits the low byte of its data register; the frame is that of an
emission. -/
theorem putcEmitsTheLowByte : Obligations.PutcEmitsTheLowByte := by
  intro rn rv s hn
  rw [exec_trap_of_putc hn, putc_eq_emit_lowByte, emit_past_eq]
  rfl

/-! ### PRINT (45_trap_print.md R184) -/

/-- What PRINT does at every state: the event carries the full register (R184). -/
theorem exec_print (rs : RegIx) (s : State) : exec (.print rs) s = .next ((s.past .r).emit (.dec (s.reg rs))) := rfl

/-- Settles O52: PRINT has format R, so `decode_of_r` reads its operand; its effect is the emission of the register's
value, with the frame of an emission. -/
theorem printEmitsTheDecimalValue : Obligations.PrintEmitsTheDecimalValue :=
  ⟨decode_of_r rfl, fun rs s => (exec_print rs s).trans (congrArg Host.Outcome.next (emit_past_eq s .r _))⟩

end Sys2Proof.TrapPrintProofs

namespace Sys2Proof.ExceptionProofs

open Sys2Proof Machine Safety

/-! ### The catalog lookup of a fetched opcode byte (30_encoding.md R66) -/

/-- The opcodes below 22 all have a catalog entry. -/
theorem exists_catalog_of_lt {op : Byte} (h : op.toNat < 22) : ∃ e, catalog op = some e :=
  Option.ne_none_iff_exists'.mp fun hnone => absurd ((catalog_eq_none_iff op).mp hnone) (Nat.not_le.mpr h)

/-! ### The three ends of a fetch inside the program (60_exceptions.md R207)

Each excludes the two cases of `State.fetch_cases` that the other checks decide. -/

/-- An unknown opcode is found before its operands are looked for (R83). -/
theorem fetch_of_unknownOpcode {s : State} (h : CanFetch s) (hop : 22 ≤ (opcodeAt s).toNat) :
    s.fetch = .unknownOpcode (opcodeAt s) := by
  have hnone := (catalog_eq_none_iff (opcodeAt s)).mpr hop
  rcases State.fetch_cases h with ⟨-, hf⟩ | ⟨e, hc, -⟩ | ⟨e, -, -, hc, -⟩
  · exact hf
  · cases hnone.symm.trans hc
  · cases hnone.symm.trans hc

/-- A known opcode whose operands pass `memory_size` is truncated (R84). -/
theorem fetch_of_truncated {s : State} {e : Entry} (h : CanFetch s) (he : catalog (opcodeAt s) = some e)
    (hlong : s.memSize < s.pc.toNat + 1 + e.format.operandBytes) : s.fetch = .truncated (opcodeAt s) := by
  rcases State.fetch_cases h with ⟨hnone, -⟩ | ⟨-, -, -, hf⟩ | ⟨e', -, -, hc, hfits, -⟩
  · cases hnone.symm.trans he
  · exact hf
  · obtain rfl : e = e' := Option.some.inj (he.symm.trans hc)
    omega

/-- A known opcode whose operands lie below `memory_size` is fetched as an instruction of that opcode (R85). -/
theorem fetch_of_operandsFit {s : State} {e : Entry} (h : CanFetch s) (he : catalog (opcodeAt s) = some e)
    (hfits : s.pc.toNat + 1 + e.format.operandBytes ≤ s.memSize) :
    ∃ i, i.opcode = opcodeAt s ∧ s.fetch = .instr i := by
  rcases State.fetch_cases h with ⟨hnone, -⟩ | ⟨e', hc, hlong, -⟩ | ⟨-, i, -, -, -, -, hop, -, hf⟩
  · cases hnone.symm.trans he
  · obtain rfl : e = e' := Option.some.inj (he.symm.trans hc)
    omega
  · exact ⟨i, hop, hf⟩

/-! ### The entry of a fault (60_exceptions.md R208) -/

/-- Raising a fault with `pc` moved past the bytes read so far leaves everything else. -/
theorem faultEntry_advance_raise (s : State) (n : Nat) (f : FaultRecord) : FaultEntry f s ((s.advance n).raise f) :=
  ⟨rfl, rfl, fun _ => rfl, fun _ => rfl, rfl, rfl, rfl, rfl, rfl, rfl, rfl⟩

theorem step_of_fetch_unknownOpcode {s : State} {op : Byte} (h : s.fetch = .unknownOpcode op) :
    step s = .next ((s.advance 1).raise (.unknownOpcode op s.pc)) := by
  simp only [step, h, State.raiseUnknownOpcode]

theorem step_of_fetch_truncated {s : State} {op : Byte} (h : s.fetch = .truncated op) :
    step s = .next ((s.advance 1).raise (.truncatedInstruction op s.pc)) := by
  simp only [step, h, State.raiseTruncated]

/-! ### The faults of the handlers (60_exceptions.md R200, R201) -/

/-- An instruction makes a Running core Faulted only as LOAD_ADDR or STORE_ADDR outside memory, or as DIV by 0; it
records the opcode address. -/
theorem fault_of_effect {i : Instr} {s t : State} (h : Effect i s t) (hr : s.status = .running)
    (ht : t.status = .faulted) :
    (∃ r addr, (i = .loadAddr r addr ∨ i = .storeAddr r addr) ∧ s.memSize < addr.toNat + 8 ∧
      t.fault = some (.outOfBoundsAccess addr s.pc)) ∨
    (∃ rd ra rb, i = .div rd ra rb ∧ s.reg rb = 0 ∧ t.fault = some (.divisionByZero s.pc)) := by
  cases h with
  | outOfBounds r addr hi hb => exact .inl ⟨r, addr, hi, (State.inBounds_eq_false_iff s addr).mp hb, rfl⟩
  | divByZero rd ra rb hi hz => exact .inr ⟨rd, ra, rb, hi, hz, rfl⟩
  | halts => cases ht
  | writesReg | stores | fallsThrough | jumps | loops | prints | putc | unknownTrap | getcByte | getcWaits | getcKeeps
  | getcStores => cases hr.symm.trans ht

/-! ### The order of the checks -/

/-- Settles O10: the end of the program is `step_of_endOfProgram`; inside the program the catalog and the length check
fix what the fetch answers, one lemma per answer, and the handler's own faults are `fault_of_effect`. -/
theorem stepChecksInFixedOrder : Obligations.StepChecksInFixedOrder := by
  intro s hr hcode
  refine ⟨fun hend => ⟨_, step_of_endOfProgram hr hend, rfl, rfl⟩, fun hp hop => ?_, fun hp hop => ?_⟩
  · have hf := fetch_of_unknownOpcode ⟨hr, hp, hcode⟩ hop
    exact ⟨_, s.pc, step_of_fetch_unknownOpcode hf, faultEntry_advance_raise s 1 _⟩
  obtain ⟨e, he⟩ := exists_catalog_of_lt hop
  refine ⟨e, he, fun hlong => ?_, fun hfits => ?_⟩
  · have hf := fetch_of_truncated ⟨hr, hp, hcode⟩ he hlong
    exact ⟨_, s.pc, step_of_fetch_truncated hf, faultEntry_advance_raise s 1 _⟩
  · obtain ⟨i, hiop, hf⟩ := fetch_of_operandsFit ⟨hr, hp, hcode⟩ he hfits
    obtain ⟨t, ht, heff⟩ := exec_effect i s
    refine ⟨i, t, hiop, step_of_instr hf, (step_of_instr hf).trans ht, fun hfault => ?_⟩
    rcases fault_of_effect heff hr hfault with ⟨r, addr, hi, -, hrec⟩ | ⟨rd, ra, rb, hi, -, hrec⟩
    · exact .inl ⟨r, addr, s.pc, hi, hrec⟩
    · exact .inr ⟨rd, ra, rb, s.pc, hi, hrec⟩

end Sys2Proof.ExceptionProofs

namespace Sys2Proof.FrameProofs

open Sys2Proof Machine Safety

/-! ### The frame of an instruction and of a Step: memory and the two sizes (20_memory.md R45, 10_state.md R29, R30) -/

/-- An instruction writes memory only as an in-bounds STORE_ADDR. -/
theorem effect_mem {i : Instr} {s t : State} (h : Effect i s t) :
    t.mem = s.mem ∨ ∃ rs addr, i = .storeAddr rs addr ∧ s.inBounds addr = true ∧
      t.mem = s.mem.write64 addr.toNat (s.reg rs) := by
  cases h with
  | stores rs addr hi hb => exact .inr ⟨rs, addr, hi, hb, rfl⟩
  | writesReg | outOfBounds | divByZero | halts | fallsThrough | jumps | loops | prints | putc | unknownTrap | getcByte
  | getcWaits | getcKeeps | getcStores => exact .inl rfl

/-- A Step writes memory only by a fetched in-bounds STORE_ADDR. -/
theorem step_mem {s t : State} (h : step s = .next t) :
    t.mem = s.mem ∨ ∃ rs addr, s.fetch = .instr (.storeAddr rs addr) ∧ s.inBounds addr = true ∧
      t.mem = s.mem.write64 addr.toNat (s.reg rs) := by
  rcases step_cases h with ⟨-, rfl⟩ | ⟨-, -, rfl⟩ | ⟨-, -, -, rfl⟩ | ⟨-, -, -, rfl⟩ | ⟨i, -, hf, -, he⟩
  · exact .inl rfl
  · exact .inl rfl
  · exact .inl rfl
  · exact .inl rfl
  · rcases effect_mem he with hm | ⟨rs, addr, rfl, hb, hm⟩
    · exact .inl hm
    · exact .inr ⟨rs, addr, hf, hb, hm⟩

/-- A byte that a word store changes lies in the eight bytes of the store. -/
theorem mem_range_of_read_write64_ne {m : Memory} (hm : m.wf) {a x : Nat} {v : Word}
    (h : (m.write64 a v).read x ≠ m.read x) : a ≤ x ∧ x < a + 8 := by
  by_contra hout
  exact h (by rw [Memory.read_write64 hm, if_neg hout])

/-- Settles O23: by `step_mem` only an in-bounds STORE_ADDR writes memory, and it changes only the eight bytes it
holds. -/
theorem onlyStoreAddrChangesMemory : Obligations.OnlyStoreAddrChangesMemory := by
  intro s t a hm h hne
  rcases step_mem h with hkeep | ⟨rs, addr, hf, hb, hmem⟩
  · exact absurd (congrArg (·.read a) hkeep) hne
  · simp only [State.readByte, hmem] at hne
    obtain ⟨hlo, hhi⟩ := mem_range_of_read_write64_ne hm hne
    exact ⟨rs, addr, hf, hlo, hhi, (State.inBounds_iff s addr).mp hb⟩

theorem effect_sizes {i : Instr} {s t : State} (h : Effect i s t) :
    t.codeSize = s.codeSize ∧ t.memSize = s.memSize := by
  cases h <;> exact ⟨rfl, rfl⟩

/-- Settles O21: each way a Step can end leaves both constants. -/
theorem codeAndMemorySizeAreConstant : Obligations.CodeAndMemorySizeAreConstant := by
  intro s t h
  rcases step_cases h with ⟨-, rfl⟩ | ⟨-, -, rfl⟩ | ⟨-, -, -, rfl⟩ | ⟨-, -, -, rfl⟩ | ⟨i, -, -, -, he⟩
  · exact ⟨rfl, rfl⟩
  · exact ⟨rfl, rfl⟩
  · exact ⟨rfl, rfl⟩
  · exact ⟨rfl, rfl⟩
  · exact effect_sizes he

/-! ### Status and fault record (10_state.md R26, R27) -/

/-- An instruction writes the fault record as it makes the core Faulted, or leaves the record and either leaves the
status register or halts. -/
theorem effect_fault {i : Instr} {s t : State} (h : Effect i s t) :
    (t.status = .faulted ∧ t.fault ≠ none) ∨ (t.fault = s.fault ∧ (t.status = s.status ∨ t.status = .halted)) := by
  cases h with
  | outOfBounds | divByZero => exact .inl ⟨rfl, Option.some_ne_none _⟩
  | halts => exact .inr ⟨rfl, .inr rfl⟩
  | writesReg | stores | fallsThrough | jumps | loops | prints | putc | unknownTrap | getcByte | getcWaits | getcKeeps
  | getcStores => exact .inr ⟨rfl, .inl rfl⟩

/-- A Step of a Running core writes the fault record as it makes the core Faulted, or leaves the record and does not
make the core Faulted. A Step of any other core changes nothing. -/
theorem step_fault {s t : State} (h : step s = .next t) :
    (s.status ≠ .running ∧ t = s) ∨
    (s.status = .running ∧ t.status = .faulted ∧ t.fault ≠ none) ∨
    (s.status = .running ∧ t.status ≠ .faulted ∧ t.fault = s.fault) := by
  rcases step_cases h with hstop | ⟨hr, -, rfl⟩ | ⟨-, hr, -, rfl⟩ | ⟨-, hr, -, rfl⟩ | ⟨i, hr, -, -, he⟩
  · exact .inl hstop
  · exact .inr (.inr ⟨hr, Status.noConfusion, rfl⟩)
  · exact .inr (.inl ⟨hr, rfl, Option.some_ne_none _⟩)
  · exact .inr (.inl ⟨hr, rfl, Option.some_ne_none _⟩)
  · rcases effect_fault he with ⟨hst, hrec⟩ | ⟨hrec, hst | hst⟩
    · exact .inr (.inl ⟨hr, hst, hrec⟩)
    · exact .inr (.inr ⟨hr, by simp [hst, hr], hrec⟩)
    · exact .inr (.inr ⟨hr, by simp [hst], hrec⟩)

/-- Settles O14: the three cases of `step_fault`. -/
theorem statusChangesOnlyOutOfRunning : Obligations.StatusChangesOnlyOutOfRunning := by
  intro s t h
  rcases step_fault h with ⟨hstop, rfl⟩ | ⟨hr, hst, -⟩ | ⟨hr, -, hrec⟩
  · exact ⟨fun _ => rfl, fun hne => absurd rfl hne⟩
  · exact ⟨fun hne => absurd hr hne, fun _ => ⟨hr, hst⟩⟩
  · exact ⟨fun hne => absurd hr hne, fun hne => absurd hrec hne⟩

/-! ### Registers (10_state.md R21) -/

/-- A register that an instruction changes is the one it names as its destination, and the instruction is a register
operation, a LOOP or a GETC. -/
theorem dest_of_reg_ne {i : Instr} {s t : State} {r : RegIx} (h : Effect i s t) (hne : t.reg r ≠ s.reg r) :
    (destOf i = some r ∧ isRegOp i = true) ∨ (∃ x, i = .loop r x) ∨ (∃ n, i = .trap n r ∧ s.reg n = 1) := by
  have named (u : State) (d : RegIx) (v : Word) (hu : u.reg r = s.reg r) (hw : (u.setReg d v).reg r ≠ s.reg r) :
      d = r := by
    by_contra hd
    exact hw ((State.reg_setReg_other u d r v (Ne.symm hd)).trans hu)
  cases h with
  | writesReg d v hd hi => exact .inl ⟨named (s.past i.format) d v rfl hne ▸ hd, hi⟩
  | loops rc rt hi => exact .inr (.inl ⟨rt, named (s.past i.format) rc _ rfl hne ▸ hi⟩)
  | getcByte rn rv b _ hi hn =>
    obtain rfl := named (s.past i.format) rv (inputWord b) rfl hne
    exact .inr (.inr ⟨rn, hi, hn⟩)
  | getcStores rn rv v hi hn =>
    obtain rfl := named (s.past i.format) rv v rfl hne
    exact .inr (.inr ⟨rn, hi, hn⟩)
  | stores | outOfBounds | divByZero | halts | fallsThrough | jumps | prints | putc | unknownTrap | getcWaits
  | getcKeeps => exact absurd rfl hne

/-- Settles O22: a changed register is the destination of a register operation, each listed under its own name, or is
written by a LOOP or a GETC. -/
theorem onlyNamedRegistersChange : Obligations.OnlyNamedRegistersChange := by
  intro i s t r h hne
  rcases dest_of_reg_ne (effect_of_exec h) hne with ⟨hd, hi⟩ | ⟨x, rfl⟩ | ⟨n, rfl, hn⟩
  · cases i with
    | halt | storeAddr | jump | jumpIfNz | jumpIfZ | loop | trap | print => cases hi
    | load | loadAddr | move | add | sub | mul | div | inc | dec | and | not | or | xor | cmp =>
      obtain rfl := Option.some.inj hd
      simp
  · simp
  · simp [hn]

/-! ### The program counter (10_state.md R25) -/

/-- Settles O24: `pc` is past the instruction in every effect but a taken transfer and a waiting GETC. A transfer
leaves its target register as it read it, LOOP after the decrement. -/
theorem onlyJumpsLeaveTheSequence : Obligations.OnlyJumpsLeaveTheSequence := by
  intro i s t h
  cases effect_of_exec h with
  | jumps rt hi =>
    rcases hi with hi | ⟨rc, hi, hz⟩ | ⟨rc, hi, hz⟩
    · exact .inr (.inl ⟨rt, hi, rfl⟩)
    · exact .inr (.inr (.inl ⟨rc, rt, .inl hi, hz, rfl⟩))
    · exact .inr (.inr (.inr (.inl ⟨rc, rt, hi, hz, rfl⟩)))
  | loops rc rt hi hz => exact .inr (.inr (.inl ⟨rc, rt, .inr hi, hz, rfl⟩))
  | getcWaits rn rv hi hn => exact .inr (.inr (.inr (.inr ⟨rn, rv, hi, hn, rfl, rfl⟩)))
  | writesReg | stores | outOfBounds | divByZero | halts | fallsThrough | prints | putc | unknownTrap | getcByte
  | getcKeeps | getcStores => exact .inl rfl

/-! ### Output (45_trap_print.md R185) -/

/-- Settles O26: of the ends of a Step only the effects of PRINT and PUTC append to OUT. -/
theorem onlyPrintAndPutcEmit : Obligations.OnlyPrintAndPutcEmit := by
  intro s t h
  rcases step_cases h with ⟨-, rfl⟩ | ⟨-, -, rfl⟩ | ⟨-, -, -, rfl⟩ | ⟨-, -, -, rfl⟩ | ⟨i, -, hf, -, he⟩
  · exact .inl rfl
  · exact .inl rfl
  · exact .inl rfl
  · exact .inl rfl
  · cases he with
    | prints rs hi => exact .inr (.inl ⟨rs, hi ▸ hf, rfl⟩)
    | putc rn rv hi hn =>
      refine .inr (.inr ⟨rn, rv, hi ▸ hf, hn, ?_⟩)
      rw [State.emit_out, State.past_out, BitVec.setWidth_eq_extractLsb' (by decide)]
    | writesReg | stores | outOfBounds | divByZero | halts | fallsThrough | jumps | loops | unknownTrap | getcByte
    | getcWaits | getcKeeps | getcStores => exact .inl rfl

end Sys2Proof.FrameProofs

namespace Sys2Proof.InvariantProofs

open Sys2Proof Machine Safety

/-! ### Where a Step may fetch (40_step.md R81, R82) -/

theorem fetch_of_not_running {s : State} (h : s.status ≠ .running) : s.fetch = .stopped := by
  unfold State.fetch
  cases hs : s.status with
  | running => exact absurd hs h
  | halted | faulted => rfl

theorem fetch_of_endOfProgram {s : State} (hr : s.status = .running) (hp : s.codeSize ≤ s.pc.toNat) :
    s.fetch = .endOfProgram := by
  simp only [State.fetch, hr, if_pos hp]

/-- A fetch that answers neither that the core is stopped nor the end of the program finds an opcode byte. -/
theorem canFetch_of_fetch {s : State} (hcode : s.codeSize ≤ s.memSize) (hstop : s.fetch ≠ .stopped)
    (hend : s.fetch ≠ .endOfProgram) : CanFetch s := by
  have hr : s.status = .running := by
    by_contra hne
    exact hstop (fetch_of_not_running hne)
  exact ⟨hr, not_le.mp fun hp => hend (fetch_of_endOfProgram hr hp), hcode⟩

/-! ### The wait clause of the invariant (10_state.md R34) -/

/-- What GETC can leave of the wait: it waits, or it completes and ends the wait. -/
theorem getc_cases (rv : RegIx) (s : State) : getc rv s = s.wait ∨ (getc rv s).getcWait = false := by
  unfold getc
  cases s.input with
  | cons b rest => exact .inr rfl
  | nil =>
    cases s.inputEnded with
    | false => exact .inl rfl
    | true =>
      cases Config.getcEof with
      | hold => exact .inl rfl
      | keep | store v => exact .inr rfl

/-- What TRAP does where its trap register holds the number of GETC (R180). -/
theorem exec_trap_of_getc {rn : RegIx} {s : State} (h : s.reg rn = trapGetc) (rv : RegIx) :
    exec (.trap rn rv) s = .next (getc rv s) := by
  have hne : s.reg rn ≠ trapPutc := by rw [h]; decide
  simp only [exec, execTrap, if_neg hne, if_pos h]

/-- An instruction starts a wait only as a GETC that changes nothing else. -/
theorem effect_getcWait {i : Instr} {s t : State} (h : Effect i s t) (ht : t.getcWait = true) :
    s.getcWait = true ∨ (t = s.wait ∧ ∃ rn rv, i = .trap rn rv ∧ s.reg rn = trapGetc) := by
  cases h with
  | getcWaits rn rv hi hn => exact .inr ⟨rfl, rn, rv, hi, hn⟩
  | getcByte | getcKeeps | getcStores => cases ht
  | writesReg | stores | outOfBounds | divByZero | halts | fallsThrough | jumps | loops | prints | putc
  | unknownTrap => exact .inl ht

/-- The wait changes nothing that a fetch or a register read sees. -/
theorem atGetc_wait {s : State} (h : AtGetc s) : AtGetc s.wait := by
  obtain ⟨rn, rv, hf, hn⟩ := h
  exact ⟨rn, rv, (State.fetch_congr rfl rfl rfl rfl rfl).trans hf, hn⟩

/-- An instruction leaves the core waiting only at a GETC. A core that waited before it ran a GETC, which either ends
the wait or leaves the core where it is. -/
theorem atGetc_of_exec {i : Instr} {s t : State} (hs : s.getcWait = true → AtGetc s) (hf : s.fetch = .instr i)
    (hx : exec i s = .next t) (ht : t.getcWait = true) : AtGetc t := by
  rcases effect_getcWait (effect_of_exec hx) ht with hw | ⟨rfl, rn, rv, rfl, hn⟩
  · obtain ⟨rn, rv, hfetch, hn⟩ := hs hw
    obtain rfl : i = .trap rn rv := Fetched.instr.inj (hf.symm.trans hfetch)
    rw [exec_trap_of_getc hn] at hx
    obtain rfl : getc rv s = t := Host.Outcome.next.inj hx
    rcases getc_cases rv s with hwait | hdone
    · exact hwait ▸ atGetc_wait ⟨rn, rv, hf, hn⟩
    · cases hdone.symm.trans ht
  · exact atGetc_wait ⟨rn, rv, hf, hn⟩

/-- A Step leaves the core waiting only at a GETC: a core that waits fetches its TRAP, so that no other end of a Step
can follow. -/
theorem atGetc_of_step {s t : State} (hs : s.getcWait = true → AtGetc s) (h : step s = .next t)
    (ht : t.getcWait = true) : AtGetc t := by
  rcases step_cases h with ⟨-, rfl⟩ | ⟨-, hend, rfl⟩ | ⟨op, -, hf, rfl⟩ | ⟨op, -, hf, rfl⟩ | ⟨i, -, hf, hx, -⟩
  · exact hs ht
  · obtain ⟨rn, rv, hfetch, -⟩ := hs ht
    obtain ⟨-, hin, -⟩ := State.fetch_instr hfetch
    exact absurd hend (not_le.mpr hin)
  · obtain ⟨rn, rv, hfetch, -⟩ := hs ht
    cases hf.symm.trans hfetch
  · obtain ⟨rn, rv, hfetch, -⟩ := hs ht
    cases hf.symm.trans hfetch
  · exact atGetc_of_exec hs hf hx ht

/-! ### The invariant under every transition -/

/-- A word store inside memory keeps memory canonical and bounded (R45). -/
theorem memory_inv_write64 {m : Memory} {n a : Nat} (hwf : m.wf) (hbound : ∀ c ∈ m, c.1 < n) (ha : a + 8 ≤ n)
    (v : Word) : (m.write64 a v).wf ∧ ∀ c ∈ m.write64 a v, c.1 < n := by
  refine ⟨Memory.wf_write64 hwf a v, fun c hc => ?_⟩
  rcases Memory.mem_writeBytes hc with hold | ⟨-, hnew⟩
  · exact hbound c hold
  · rw [immBytes_length] at hnew
    omega

/-- A Step keeps the two clauses on memory. -/
theorem memory_inv_of_step {s t : State} (hs : Inv s) (h : step s = .next t) :
    t.mem.wf ∧ ∀ c ∈ t.mem, c.1 < s.memSize := by
  rcases FrameProofs.step_mem h with hm | ⟨rs, addr, -, hb, hm⟩
  · exact hm ▸ ⟨hs.memWf, hs.memBounded⟩
  · exact hm ▸ memory_inv_write64 hs.memWf hs.memBounded ((State.inBounds_iff s addr).mp hb) (s.reg rs)

/-- A Step keeps the clause on the fault record (R27). -/
theorem faultIff_of_step {s t : State} (hs : s.status = .faulted ↔ s.fault ≠ none) (h : step s = .next t) :
    t.status = .faulted ↔ t.fault ≠ none := by
  rcases FrameProofs.step_fault h with ⟨-, rfl⟩ | ⟨-, hst, hrec⟩ | ⟨hr, hst, hrec⟩
  · exact hs
  · exact iff_of_true hst hrec
  · have hnone : ¬ s.fault ≠ none := fun hsome => by cases hr.symm.trans (hs.mpr hsome)
    exact iff_of_false hst (hrec ▸ hnone)

theorem inv_of_step {s t : State} (hs : Inv s) (h : step s = .next t) : Inv t := by
  obtain ⟨hcode, hmem⟩ := FrameProofs.codeAndMemorySizeAreConstant s t h
  obtain ⟨hwf, hbound⟩ := memory_inv_of_step hs h
  exact {
    memWf := hwf
    memBounded := hmem ▸ hbound
    codeFits := hcode ▸ hmem ▸ hs.codeFits
    capacity := hmem ▸ hs.capacity
    faultIff := faultIff_of_step hs.faultIff h
    waitAtGetc := atGetc_of_step hs.waitAtGetc h }

/-- A change of the IN interface alone keeps the invariant, which does not read it: the fetch is the same. -/
theorem inv_of_input_change {s : State} (hs : Inv s) (input : List Byte) (ended : Bool) :
    Inv { s with input := input, inputEnded := ended } where
  memWf := hs.memWf
  memBounded := hs.memBounded
  codeFits := hs.codeFits
  capacity := hs.capacity
  faultIff := hs.faultIff
  waitAtGetc := fun hw => by
    obtain ⟨rn, rv, hf, hn⟩ := hs.waitAtGetc hw
    exact ⟨rn, rv, (State.fetch_congr rfl rfl rfl rfl rfl).trans hf, hn⟩

theorem inv_deliver {s : State} (hs : Inv s) (b : Byte) : Inv (s.deliver b) := inv_of_input_change hs _ _

theorem inv_endInput {s : State} (hs : Inv s) : Inv s.endInput := inv_of_input_change hs _ _

/-- Every run of Steps and input from a state of the invariant ends in one. -/
theorem inv_of_reaches {s t : State} (hs : Inv s) (h : Reaches s t) : Inv t := by
  induction h with
  | refl => exact hs
  | step _ hstep ih => exact inv_of_step ih hstep
  | deliver _ b ih => exact inv_deliver ih b
  | endInput _ ih => exact inv_endInput ih

/-- Settles O19: clause by clause for a Step, by the frame of IN for the host's transactions, and by induction on the
run. -/
theorem stepKeepsTheInvariant : Obligations.StepKeepsTheInvariant :=
  ⟨fun _ _ => inv_of_step, fun _ hs => ⟨inv_deliver hs, inv_endInput hs⟩, fun _ _ => inv_of_reaches⟩

/-! ### The invariant at reset and construction (70_reset_and_hazards.md R230, R231) -/

theorem inv_reset : Inv State.reset where
  memWf := Memory.wf_nil
  memBounded := fun _ hc => nomatch hc
  codeFits := Nat.zero_le _
  capacity := Nat.le_refl _
  faultIff := iff_of_false Status.noConfusion (not_not_intro rfl)
  waitAtGetc := Bool.noConfusion

/-- The three checks of LOAD (R230, R232). -/
theorem loadable_iff (image : List Byte) (n : Nat) :
    WellFormed.loadable image n = true ↔ image ≠ [] ∧ image.length ≤ n ∧ n ≤ 2 ^ 64 - 1 := by
  simp [WellFormed.loadable, WellFormed.imageNonEmpty, WellFormed.imageFits, WellFormed.capacityBounded, and_assoc]

theorem inv_construct {image : List Byte} {n : Nat} {s : State} (h : State.construct image n = some s) : Inv s := by
  obtain ⟨hload, rfl⟩ := (StateProofs.construct_eq_some_iff image n s).mp h
  obtain ⟨-, hfits, hcap⟩ := (loadable_iff image n).mp hload
  exact {
    memWf := Memory.wf_writeBytes Memory.wf_nil 0 image
    memBounded := fun c hc => by
      rcases Memory.mem_writeBytes hc with hnil | ⟨-, hlt⟩
      · cases hnil
      · exact lt_of_lt_of_le hlt (by simpa using hfits)
    codeFits := hfits
    capacity := hcap
    faultIff := inv_reset.faultIff
    waitAtGetc := Bool.noConfusion }

/-- Settles O20: the reset state holds nothing in memory, and a construction writes only its image, which fits. -/
theorem invariantHoldsAtReset : Obligations.InvariantHoldsAtReset :=
  ⟨inv_reset, fun _ _ _ => inv_construct⟩

/-- Settles O17: the image is loadable, so the construction answers the state that `construct_eq_some_iff` names; its
bytes are those of a write to an empty memory. -/
theorem constructionGivesTheResetState : Obligations.ConstructionGivesTheResetState := by
  intro image n hne hfits hcap
  have hload := (loadable_iff image n).mpr ⟨List.ne_nil_of_length_pos hne, hfits, hcap⟩
  have hread := Memory.read_writeBytes Memory.wf_nil 0 image
  refine ⟨_, (StateProofs.construct_eq_some_iff image n _).mpr ⟨hload, rfl⟩, State.reset_reg, rfl, rfl, rfl,
    fun a ha => ?_, fun a ha => ?_, rfl, rfl, rfl, rfl, rfl⟩
  · exact (hread a).trans (dif_pos ⟨Nat.zero_le a, ha⟩)
  · exact (hread a).trans (dif_neg fun hin => absurd hin.2 (not_lt.mpr ha))

/-- Settles O18: a construction answers no state exactly when one of the three checks of LOAD fails. -/
theorem constructionRefusesBadLoads : Obligations.ConstructionRefusesBadLoads := by
  intro image n
  have hnone : State.construct image n = none ↔ ¬ WellFormed.loadable image n = true := by
    simp only [State.construct, ite_eq_right_iff, reduceCtorEq, imp_false]
  rw [hnone, loadable_iff, not_and_or, not_and_or, not_not, not_le, not_le]

/-! ### What the invariant gives a Step -/

/-- Settles O15: a stopped core and the end of the program are answered, and elsewhere the fetch is total, so that the
model's own fault is never reached. -/
theorem everyStepIsAnswered : Obligations.EveryStepIsAnswered := by
  intro s hs
  by_cases hr : s.status = .running
  · by_cases hp : s.codeSize ≤ s.pc.toNat
    · exact ⟨_, step_of_endOfProgram hr hp⟩
    · rcases EncodingProofs.fetch_total ⟨hr, not_le.mp hp, hs.codeFits⟩ with ⟨i, hf⟩ | ⟨op, hf⟩ | ⟨op, hf⟩
      · obtain ⟨t, hx, -⟩ := exec_effect i s
        exact ⟨t, (step_of_instr hf).trans hx⟩
      · exact ⟨_, ExceptionProofs.step_of_fetch_unknownOpcode hf⟩
      · exact ⟨_, ExceptionProofs.step_of_fetch_truncated hf⟩
  · exact ⟨s, step_of_stopped hr⟩

/-- An advance that ends at or below `memory_size` does not wrap (R25). -/
theorem advance_toNat {s : State} {n : Nat} (hcap : s.memSize ≤ 2 ^ 64 - 1) (h : s.pc.toNat + n ≤ s.memSize) :
    (s.pc + BitVec.ofNat 64 n).toNat = s.pc.toNat + n := by
  rw [BitVec.toNat_add, BitVec.toNat_ofNat]
  omega

/-- Settles O25: a fetched instruction ends at or below `memory_size` (`State.fetch_instr_fits`), and an opcode byte
that is fetched lies below it (`canFetch_of_fetch`); in both cases the capacity bounds the sum. -/
theorem sequentialAdvanceNeverWraps : Obligations.SequentialAdvanceNeverWraps := by
  refine ⟨fun s i hs hf => ?_, fun s op hs hf => ?_⟩
  · have hfits := State.fetch_instr_fits hf
    exact ⟨hfits, advance_toNat hs.capacity hfits⟩
  · obtain ⟨-, hin, hcode⟩ : CanFetch s := by
      rcases hf with hf | hf
      · exact canFetch_of_fetch hs.codeFits (by simp [hf]) (by simp [hf])
      · exact canFetch_of_fetch hs.codeFits (by simp [hf]) (by simp [hf])
    have hfits : s.pc.toNat + 1 ≤ s.memSize := by omega
    exact ⟨hfits, advance_toNat hs.capacity hfits⟩

/-! ### A stopped core (40_step.md R88) -/

/-- A state that a Step leaves as it is stays for any number of Steps. -/
theorem run_of_step_self {s : State} (h : step s = .next s) (n : Nat) : Host.Core.run core n s = .next s := by
  have hc : core.step s = .next s := h
  induction n with
  | zero => rfl
  | succ n ih => simp only [Host.Core.run, hc, ih]

/-- Settles O13: a Step leaves a stopped core as it is, and so does any number of them. -/
theorem stoppedCoreStaysStopped : Obligations.StoppedCoreStaysStopped :=
  fun _ n hs => run_of_step_self (step_of_stopped hs) n

end Sys2Proof.InvariantProofs

namespace Sys2Proof.TableProofs

open Sys2Proof Machine Safety MemoryProofs DataTransferProofs ArithmeticProofs LogicProofs

/-! ### The opcode map (30_encoding.md R65) -/

/-- An immediate is the word of the sum of rule R9. -/
theorem imm64_eq_ofNat_leSum {bs : List Byte} (h : bs.length = 8) :
    imm64 bs = BitVec.ofNat 64 (leSum (bs.getD · 0)) := by
  rw [← imm64_toNat_eq_leSum h, BitVec.ofNat_toNat, BitVec.setWidth_eq]

/-- Settles O2: each opcode byte has its catalog entry, and the operands are read by the lemma of the entry's
format. -/
theorem everyOpcodeDecodesToItsInstruction : Obligations.EveryOpcodeDecodesToItsInstruction := by
  intro b1 b2 b3 imm rest himm
  rw [← imm64_eq_ofNat_leSum himm]
  exact ⟨rfl, decode_of_ri rfl b1 rest himm, decode_of_ri rfl b1 rest himm, decode_of_ri rfl b1 rest himm,
    decode_of_rr rfl b1 b2 rest, decode_of_rrr rfl b1 b2 b3 rest, decode_of_rrr rfl b1 b2 b3 rest,
    decode_of_rrr rfl b1 b2 b3 rest, decode_of_rrr rfl b1 b2 b3 rest, decode_of_r rfl b1 rest, decode_of_r rfl b1 rest,
    decode_of_rrr rfl b1 b2 b3 rest, decode_of_r rfl b1 rest, decode_of_rrr rfl b1 b2 b3 rest,
    decode_of_rrr rfl b1 b2 b3 rest, decode_of_rrr rfl b1 b2 b3 rest, decode_of_r rfl b1 rest,
    decode_of_rr rfl b1 b2 rest, decode_of_rr rfl b1 b2 rest, decode_of_rr rfl b1 b2 rest, decode_of_rr rfl b1 b2 rest,
    decode_of_r rfl b1 rest⟩

/-- Settles O3: fixed words, each evaluated by the decoder. -/
theorem specExampleWordsDecode : Obligations.SpecExampleWordsDecode :=
  ⟨rfl, rfl, rfl, rfl, rfl, rfl, rfl, rfl⟩

/-! ### Lengths (30_encoding.md R60, R62) -/

/-- A decoded instruction has the format of its opcode byte's catalog entry. -/
theorem catalog_of_decode {op : Byte} {bs rest : List Byte} {i : Instr} (h : decode (op :: bs) = .ok (i, rest)) :
    ∃ e, catalog op = some e ∧ i.format = e.format ∧ i.opcode = op := by
  rcases decode_cases op bs with ⟨-, hd⟩ | ⟨-, -, -, hd⟩ | ⟨e, j, rest', hc, -, hr, hd⟩
  · cases hd.symm.trans h
  · cases hd.symm.trans h
  · obtain ⟨rfl, rfl⟩ := Prod.mk.inj (Except.ok.inj (hd.symm.trans h))
    exact ⟨e, hc, readOperands_format hc hr⟩

theorem format_length_mem (f : Format) : f.length ∈ [1, 2, 3, 4, 10] := by
  cases f <;> decide

/-- Settles O5: both instructions have the format of the one catalog entry of their opcode byte, and `decode_ok` says
which bytes are used. -/
theorem opcodeByteAloneFixesTheLength : Obligations.OpcodeByteAloneFixesTheLength := by
  intro op bs cs rest rest' i j hi hj
  obtain ⟨e, hce, hfi, hop⟩ := catalog_of_decode hi
  obtain ⟨e', hce', hfj, -⟩ := catalog_of_decode hj
  obtain rfl : e = e' := Option.some.inj (hce.symm.trans hce')
  obtain ⟨pre, hpre, hlen⟩ := decode_ok hi
  exact ⟨hop, format_length_mem i.format, congrArg Format.length (hfi.trans hfj.symm), _, hpre, hlen⟩

/-! ### A Step on the bytes of an instruction (40_step.md R82 to R86) -/

/-- Settles O7: the fetch is the decoded window, and the Step is `exec` of what is fetched. -/
theorem stepRunsTheDecodedInstruction : Obligations.StepRunsTheDecodedInstruction :=
  fun _ _ _ hr hp hd => step_of_instr (State.fetch_of_decode hr hp hd)

/-- A Step runs the instruction whose bytes the fetch window begins with. -/
theorem step_of_fetchWindow {s : State} {i : Instr} {rest : List Byte} (hr : s.status = .running)
    (hp : s.pc.toNat < s.codeSize) (hw : s.fetchWindow = encode i ++ rest) : step s = exec i s :=
  stepRunsTheDecodedInstruction s i rest hr hp (hw ▸ EncodingProofs.decode_encode_append i rest)

/-- The fetch window begins with the bytes of an instruction that lies at `pc` below `memory_size`. -/
theorem encode_prefix_fetchWindow {s : State} {i : Instr} (hfits : s.pc.toNat + i.length ≤ s.memSize)
    (hbytes : ∀ k, (h : k < (encode i).length) → s.readByte (s.pc.toNat + k) = (encode i)[k]) :
    encode i <+: s.fetchWindow := by
  have hmax := instr_length_le i
  rw [List.prefix_iff_getElem]
  refine ⟨by rw [encode_length, State.fetchWindow_length]; omega, fun k hk => ?_⟩
  simp only [State.fetchWindow, Memory.readBytes_getElem]
  exact (hbytes k hk).symm

/-- Settles O8: the window begins with the instruction's bytes, and its bound is `memory_size` alone. -/
theorem stepRunsTheBytesAtPc : Obligations.StepRunsTheBytesAtPc := by
  intro s i hr hp hfits hbytes
  obtain ⟨rest, hw⟩ := encode_prefix_fetchWindow hfits hbytes
  exact step_of_fetchWindow hr hp hw.symm

/-! ### A word of the opcode table (30_encoding.md R62; log entry 15) -/

/-- The bytes of a byte sequence's value are the sequence, followed by zero bytes. -/
theorem leBytes_leValue (bs : List Byte) (n : Nat) :
    leBytes (bs.length + n) (leValue bs) = bs ++ List.replicate n 0 := by
  induction bs with
  | nil =>
    induction n with
    | zero => rfl
    | succ n ih =>
      rw [List.length_nil, Nat.zero_add] at ih ⊢
      exact congrArg (List.cons 0) ih
  | cons b bs ih =>
    have hb : b.toNat < 256 := b.isLt
    have hlow : BitVec.ofNat 8 (b.toNat + 256 * leValue bs) = b := by
      apply BitVec.eq_of_toNat_eq
      rw [BitVec.toNat_ofNat]
      omega
    have hhigh : (b.toNat + 256 * leValue bs) / 256 = leValue bs := by omega
    rw [List.length_cons, Nat.add_right_comm, leBytes, leValue, hlow, hhigh, ih, List.cons_append]

/-- The table bytes of an instruction's word are its encoding and zero bytes. -/
theorem tableBytes_encode (i : Instr) : tableBytes (8 * i.length) (leValue (encode i)) =
    encode i ++ List.replicate (maxLength - i.length) 0 := by
  have hlt := leValue_lt (encode i)
  rw [encode_length, show (256 : Nat) = 2 ^ 8 from rfl, ← Nat.pow_mul] at hlt
  have hmax : maxLength = (encode i).length + (maxLength - i.length) := by
    rw [encode_length, Nat.add_sub_of_le (instr_length_le i)]
  rw [tableBytes, Nat.mod_eq_of_lt hlt]
  conv_lhs => rw [hmax]
  exact leBytes_leValue (encode i) _

/-- The table's numbering of an instruction's bits decodes to the instruction. -/
theorem decodeTableWord_encode (i : Instr) : decodeTableWord (8 * i.length) (leValue (encode i)) = some i := by
  simp only [decodeTableWord, tableBytes_encode, EncodingProofs.decode_encode_append]

/-- The fetch window of a word that `withFetchWord` places is the word's bytes: memory is raised to hold them all. -/
theorem fetchWindow_withFetchWord {s : State} (hm : s.mem.wf) (nbits w : Nat) :
    (s.withFetchWord nbits w).fetchWindow = tableBytes nbits w := by
  have hlen : (tableBytes nbits w).length = maxLength := leBytes_length maxLength _
  have hmin : min maxLength (max s.memSize (s.pc.toNat + maxLength) - s.pc.toNat) = maxLength := by omega
  have hread := Memory.readBytes_writeBytes hm s.pc.toNat (tableBytes nbits w)
  rw [hlen] at hread
  simp only [State.fetchWindow, State.withFetchWord, hmin, hread]

/-- Settles O6: the word's bytes are the encoding and zero bytes, which the decoder reads back, in the table and in the
fetch window. -/
theorem tableWordsDecodeAndRun : Obligations.TableWordsDecodeAndRun := by
  intro i s
  refine ⟨decodeTableWord_encode i, fun hm => step_of_fetchWindow rfl ?_
    ((fetchWindow_withFetchWord hm _ _).trans (tableBytes_encode i))⟩
  have hpos := instr_length_pos i
  show s.pc.toNat < max s.codeSize (s.pc.toNat + (8 * i.length + 7) / 8)
  omega

end Sys2Proof.TableProofs

namespace Sys2Proof.FaultProofs

open Sys2Proof Machine Safety ExceptionProofs

/-! ### Decode faults (40_step.md R83, R84) -/

/-- Settles O11: the fetch answers UnknownOpcode, and the Step raises it with `pc` past the opcode byte. -/
theorem unknownOpcodeFaults : Obligations.UnknownOpcodeFaults := by
  intro s hs hop
  exact ⟨_, step_of_fetch_unknownOpcode (fetch_of_unknownOpcode hs hop), faultEntry_advance_raise s 1 _, rfl⟩

/-- Settles O12: the fetch answers that the operands pass memory, and the Step raises TruncatedInstruction with `pc`
past the opcode byte. -/
theorem truncatedInstructionFaults : Obligations.TruncatedInstructionFaults := by
  intro s e hs he hlong
  exact ⟨_, step_of_fetch_truncated (fetch_of_truncated hs he hlong), faultEntry_advance_raise s 1 _, rfl⟩

/-- Settles O29: the codes are the model's definitions. -/
theorem statusAndFaultCodes : Obligations.StatusAndFaultCodes :=
  ⟨rfl, rfl, rfl, fun _ _ _ => ⟨rfl, rfl, rfl, rfl⟩⟩

/-! ### Which instructions fault (60_exceptions.md R200, R201) -/

/-- Settles O27: `fault_of_effect`, without the record. -/
theorem onlyThreeInstructionsFault : Obligations.OnlyThreeInstructionsFault := by
  intro i s t hr hx ht
  rcases fault_of_effect (effect_of_exec hx) hr ht with ⟨r, addr, hi, hout, -⟩ | ⟨rd, ra, rb, hi, hz, -⟩
  · exact .inl ⟨r, addr, hi, hout⟩
  · exact .inr ⟨rd, ra, rb, hi, hz⟩

/-- Raising a fault with `pc` moved past a whole instruction leaves everything else. -/
theorem faultEntry_past_raise (s : State) (f : Format) (r : FaultRecord) : FaultEntry r s ((s.past f).raise r) :=
  faultEntry_advance_raise s f.length r

/-- An instruction that makes a Running core Faulted enters its fault and nothing else, at the opcode address and with
`pc` past its bytes. -/
theorem faultEntry_of_effect {i : Instr} {s t : State} (h : Effect i s t) (hr : s.status = .running)
    (ht : t.status = .faulted) :
    (∃ addr, FaultEntry (.outOfBoundsAccess addr s.pc) s t ∧ t.pc = s.pc + 10) ∨
    (FaultEntry (.divisionByZero s.pc) s t ∧ t.pc = s.pc + 4) := by
  cases h with
  | outOfBounds r addr hi =>
    refine .inl ⟨addr, faultEntry_past_raise s i.format _, ?_⟩
    rcases hi with rfl | rfl
    · rfl
    · rfl
  | divByZero rd ra rb hi =>
    subst hi
    exact .inr ⟨faultEntry_past_raise s .rrr _, rfl⟩
  | halts => cases ht
  | writesReg | stores | fallsThrough | jumps | loops | prints | putc | unknownTrap | getcByte | getcWaits | getcKeeps
  | getcStores => cases hr.symm.trans ht

/-- Settles O28: the two decode faults and the faults of the instructions each enter their record alone. -/
theorem faultsArePrecise : Obligations.FaultsArePrecise := by
  intro s t hr h ht
  rcases step_cases h with ⟨hstop, -⟩ | ⟨-, -, rfl⟩ | ⟨op, -, -, rfl⟩ | ⟨op, -, -, rfl⟩ | ⟨i, -, -, -, he⟩
  · exact absurd hr hstop
  · cases ht
  · exact ⟨_, faultEntry_advance_raise s 1 _, .inl ⟨op, rfl, rfl⟩⟩
  · exact ⟨_, faultEntry_advance_raise s 1 _, .inr (.inl ⟨op, rfl, rfl⟩)⟩
  · rcases faultEntry_of_effect he hr ht with ⟨addr, hentry, hpc⟩ | ⟨hentry, hpc⟩
    · exact ⟨_, hentry, .inr (.inr (.inl ⟨addr, rfl, hpc⟩))⟩
    · exact ⟨_, hentry, .inr (.inr (.inr ⟨rfl, hpc⟩))⟩

/-! ### The four conditions of a Step (60_exceptions.md R200) -/

/-- An out-of-bounds LOAD_ADDR or STORE_ADDR raises OutOfBoundsAccess (R101, R102). -/
theorem exec_of_outOfBounds {s : State} {addr : Word} (h : s.memSize < addr.toNat + 8) {i : Instr} {r : RegIx}
    (hi : i = .loadAddr r addr ∨ i = .storeAddr r addr) :
    exec i s = .next ((s.past .ri).raise (.outOfBoundsAccess addr s.pc)) := by
  have hb : ¬ s.inBounds addr = true := by
    rw [State.inBounds_iff]
    omega
  rcases hi with rfl | rfl
  · exact if_neg hb
  · exact if_neg hb

/-- DIV by 0 raises DivisionByZero (R123). -/
theorem exec_div_of_zero {s : State} {rb : RegIx} (h : s.reg rb = 0) (rd ra : RegIx) :
    exec (.div rd ra rb) s = .next ((s.past .rrr).raise (.divisionByZero s.pc)) :=
  if_pos ((isZero_iff _).mpr h)

/-- What the fetch answers fixes the condition on the opcode byte: unknown opcodes are 22 and more, and only operands
past `memory_size` are truncated. -/
theorem conditions_of_fetch {s : State} {op : Byte} (h : CanFetch s) :
    (s.fetch = .unknownOpcode op → 22 ≤ (opcodeAt s).toNat) ∧
    (s.fetch = .truncated op →
      ∃ e, catalog (opcodeAt s) = some e ∧ s.memSize < s.pc.toNat + 1 + e.format.operandBytes) := by
  rcases State.fetch_cases h with ⟨hc, hf⟩ | ⟨e, hc, hlong, hf⟩ | ⟨-, i, -, -, -, -, -, -, hf⟩
  · exact ⟨fun _ => (catalog_eq_none_iff _).mp hc, fun hf' => (nomatch hf.symm.trans hf')⟩
  · exact ⟨fun hf' => (nomatch hf.symm.trans hf'), fun _ => ⟨e, hc, hlong⟩⟩
  · exact ⟨fun hf' => (nomatch hf.symm.trans hf'), fun hf' => (nomatch hf.symm.trans hf')⟩

/-- Settles O55: a Step that faults ended in one of the two decode faults or in a faulting handler, and each of the four
conditions makes the Step end so. -/
theorem onlyFourConditionsFault : Obligations.OnlyFourConditionsFault := by
  intro s t hr hcode h
  constructor
  · intro ht
    rcases step_cases h with ⟨hstop, -⟩ | ⟨-, -, rfl⟩ | ⟨op, -, hf, -⟩ | ⟨op, -, hf, -⟩ | ⟨i, -, hf, -, he⟩
    · exact absurd hr hstop
    · cases ht
    · have hfetch := InvariantProofs.canFetch_of_fetch hcode (by simp [hf]) (by simp [hf])
      exact ⟨hfetch.inProgram, .inl ((conditions_of_fetch hfetch).1 hf)⟩
    · have hfetch := InvariantProofs.canFetch_of_fetch hcode (by simp [hf]) (by simp [hf])
      exact ⟨hfetch.inProgram, .inr (.inl ((conditions_of_fetch hfetch).2 hf))⟩
    · obtain ⟨-, hp, -⟩ := State.fetch_instr hf
      refine ⟨hp, .inr (.inr ?_)⟩
      rcases fault_of_effect he hr ht with ⟨r, addr, rfl | rfl, hout, -⟩ | ⟨rd, ra, rb, rfl, hz, -⟩
      · exact .inl ⟨r, addr, .inl hf, hout⟩
      · exact .inl ⟨r, addr, .inr hf, hout⟩
      · exact .inr ⟨rd, ra, rb, hf, hz⟩
  · have faulted_of_raise {u : State} {f : FaultRecord} (hu : step s = .next (u.raise f)) : t.status = .faulted :=
      Host.Outcome.next.inj (hu.symm.trans h) ▸ rfl
    rintro ⟨hp, hop | ⟨e, he, hlong⟩ | ⟨r, addr, hf | hf, hout⟩ | ⟨rd, ra, rb, hf, hz⟩⟩
    · exact faulted_of_raise (step_of_fetch_unknownOpcode (fetch_of_unknownOpcode ⟨hr, hp, hcode⟩ hop))
    · exact faulted_of_raise (step_of_fetch_truncated (fetch_of_truncated ⟨hr, hp, hcode⟩ he hlong))
    · exact faulted_of_raise ((step_of_instr hf).trans (exec_of_outOfBounds hout (.inl rfl)))
    · exact faulted_of_raise ((step_of_instr hf).trans (exec_of_outOfBounds hout (.inr rfl)))
    · exact faulted_of_raise ((step_of_instr hf).trans (exec_div_of_zero hz rd ra))

end Sys2Proof.FaultProofs

namespace Sys2Proof.HandlerProofs

open Sys2Proof Machine Safety MemoryProofs DataTransferProofs ArithmeticProofs LogicProofs ControlProofs FaultProofs

/-! ### Faulting handlers -/

/-- An instruction that raises a fault past its own bytes meets the statement of a fault. -/
theorem execFaults_of_exec {i : Instr} {s : State} {f : Format} {r : FaultRecord}
    (h : exec i s = .next ((s.past f).raise r)) : ExecFaults i r s :=
  ⟨_, h, faultEntry_past_raise s f r⟩

theorem execFaults_loadAddr {s : State} {addr : Word} (h : s.memSize < addr.toNat + 8) (rd : RegIx) :
    ExecFaults (.loadAddr rd addr) (.outOfBoundsAccess addr s.pc) s :=
  execFaults_of_exec (exec_of_outOfBounds h (.inl rfl))

theorem execFaults_storeAddr {s : State} {addr : Word} (h : s.memSize < addr.toNat + 8) (rs : RegIx) :
    ExecFaults (.storeAddr rs addr) (.outOfBoundsAccess addr s.pc) s :=
  execFaults_of_exec (exec_of_outOfBounds h (.inr rfl))

/-- Settles O36: `addr + 8` is at least 2^64 as a natural, above every capacity. -/
theorem topAddressesAlwaysFault : Obligations.TopAddressesAlwaysFault := by
  intro r addr s hcap htop
  have hout : s.memSize < addr.toNat + 8 := by omega
  exact ⟨execFaults_loadAddr hout r, execFaults_storeAddr hout r⟩

/-! ### LOAD_ADDR and STORE_ADDR (41_data_transfer.md R101, R102) -/

/-- The word at an address is the sum of rule R9 over the bytes from the address up. -/
theorem loadWord_toNat (s : State) (addr : Word) :
    (s.loadWord addr).toNat = leSum fun k => s.readByte (addr.toNat + k) :=
  Memory.read64_toNat s.mem addr.toNat

/-- Settles O31: LOAD_ADDR has format RI; in bounds it is a register write of the word at its address, and out of
bounds it faults. -/
theorem loadAddrReadsTheWordOrFaults : Obligations.LoadAddrReadsTheWordOrFaults := by
  refine ⟨fun r1 bs rest hbs => ⟨imm64 bs, imm64_toNat_eq_leSum hbs, decode_of_ri rfl r1 rest hbs⟩,
    fun rd addr s => ⟨fun hin => ?_, fun hout => execFaults_loadAddr hout rd⟩⟩
  rw [← loadWord_toNat]
  exact execWritesReg_of_exec (exec_loadAddr_of_inBounds ((State.inBounds_iff s addr).mpr hin) rd)

/-- A word store leaves every byte outside its eight. -/
theorem readByte_storeWord_outside {s : State} (hm : s.mem.wf) (addr v : Word) {a : Nat}
    (ha : a < effectiveAddress addr ∨ effectiveAddress addr + 8 ≤ a) : (s.storeWord addr v).readByte a = s.readByte a := by
  rw [State.readByte, State.storeWord_mem, Memory.read_write64 hm, if_neg (by omega), State.readByte]

/-- Settles O32: STORE_ADDR has format RI; in bounds it leaves its register's bytes at its address and every other byte,
and out of bounds it faults. -/
theorem storeAddrWritesEightBytesOrFaults : Obligations.StoreAddrWritesEightBytesOrFaults := by
  refine ⟨fun r1 bs rest hbs => ⟨imm64 bs, imm64_toNat_eq_leSum hbs, decode_of_ri rfl r1 rest hbs⟩,
    fun rs addr s hm => ⟨rfl, fun hin => ?_, fun hout => execFaults_storeAddr hout rs⟩⟩
  have hpast : (s.past .ri).mem.wf := hm
  exact ⟨_, exec_storeAddr_of_inBounds ((State.inBounds_iff s addr).mpr hin) rs,
    fun k hk => readByte_storeWord hpast addr _ hk, fun a ha => readByte_storeWord_outside hpast addr _ ha, rfl,
    fun _ => rfl, ⟨rfl, rfl, rfl, rfl, rfl, rfl, rfl, rfl, rfl⟩⟩

/-- Settles O35: both instructions pass the same bounds check, and the word read where one was just stored is
`Memory.read64_write64`. -/
theorem loadAfterStoreReadsTheStoredWord : Obligations.LoadAfterStoreReadsTheStoredWord := by
  intro rs rd addr s hm hin
  have hb : s.inBounds addr = true := (State.inBounds_iff s addr).mpr hin
  have hb' : ((s.past .ri).storeWord addr (s.reg rs)).inBounds addr = true := hb
  refine ⟨_, _, exec_storeAddr_of_inBounds hb rs, exec_loadAddr_of_inBounds hb' rd, ?_⟩
  rw [State.reg_setReg_self]
  exact Memory.read64_write64 hm (effectiveAddress addr) (s.reg rs)

/-- A Running core inside the program whose opcode byte is 0 runs HALT: the byte is HALT's whole encoding. -/
theorem step_of_zero_opcode {s : State} (hr : s.status = .running) (hp : s.pc.toNat < s.codeSize)
    (hmem : s.pc.toNat < s.memSize) (hop : opcodeAt s = 0) :
    step s = .next { s with pc := s.pc + 1, status := .halted } := by
  have hbytes : ∀ k, (h : k < (encode .halt).length) → s.readByte (s.pc.toNat + k) = (encode .halt)[k] := fun k hk => by
    obtain rfl : k = 0 := Nat.lt_one_iff.mp hk
    exact hop
  exact TableProofs.stepRunsTheBytesAtPc s .halt hr hp hmem hbytes

/-- Settles O37: the stored word begins at the next `pc`, so that its first byte is the next opcode byte, and a zero
there is HALT. -/
theorem storeIsSeenByTheNextFetch : Obligations.StoreIsSeenByTheNextFetch := by
  rintro rs _ s hs hr rfl hp hin
  have hpast : (s.past .ri).mem.wf := hs.memWf
  have hop : opcodeAt ((s.past .ri).storeWord (s.pc + 10) (s.reg rs)) = (s.reg rs).extractLsb' 0 8 :=
    readByte_storeWord hpast (s.pc + 10) (s.reg rs) (k := 0) (by decide)
  exact ⟨_, exec_storeAddr_of_inBounds ((State.inBounds_iff s _).mpr hin) rs, hop, fun hzero =>
    step_of_zero_opcode hr hp (Nat.lt_of_lt_of_le (Nat.lt_add_of_pos_right (by decide)) hin) (hop.trans hzero)⟩

/-! ### DIV, INC and DEC (42_arithmetic.md R123 to R125) -/

/-- The quotient is the floor of the unsigned division, which fits a word. -/
theorem aluDiv_toNat (a b : Word) : (aluDiv a b).toNat = a.toNat / b.toNat := by
  rw [aluDiv, BitVec.toNat_ofNat]
  exact Nat.mod_eq_of_lt (Nat.lt_of_le_of_lt (Nat.div_le_self _ _) a.isLt)

/-- What DIV by a nonzero divisor does (R123). -/
theorem exec_div_of_ne_zero {s : State} {rb : RegIx} (h : s.reg rb ≠ 0) (rd ra : RegIx) :
    exec (.div rd ra rb) s = .next ((s.past .rrr).setReg rd (aluDiv (s.reg ra) (s.reg rb))) :=
  if_neg fun hz => h ((isZero_iff _).mp hz)

/-- Settles O39: DIV has format RRR; by 0 it faults, otherwise it is a register write of the quotient. -/
theorem divDividesOrFaults : Obligations.DivDividesOrFaults := by
  refine ⟨decode_of_rrr rfl, fun rd ra rb s => ⟨fun hz => execFaults_of_exec (exec_div_of_zero hz rd ra), fun hz => ?_⟩⟩
  rw [← aluDiv_toNat]
  exact execWritesReg_of_exec (exec_div_of_ne_zero hz rd ra)

/-- What INC does at every state (R124). -/
theorem exec_inc (rd : RegIx) (s : State) :
    exec (.inc rd) s = .next ((s.past .r).setReg rd (aluAdd (s.reg rd) 1)) := rfl

/-- What DEC does at every state (R125). -/
theorem exec_dec (rd : RegIx) (s : State) :
    exec (.dec rd) s = .next ((s.past .r).setReg rd (aluSub (s.reg rd) 1)) := rfl

/-- Settles O40: both are register writes of the ALU's result with 1, whose value is modulo 2^64. -/
theorem incDecWrap : Obligations.IncDecWrap := by
  intro rd s
  have hadd : (aluAdd (s.reg rd) 1).toNat = ((s.reg rd).toNat + 1) % 2 ^ 64 := aluAdd_toNat _ 1
  have hsub : (aluSub (s.reg rd) 1).toNat = ((((s.reg rd).toNat : Int) - 1) % 2 ^ 64).toNat := aluSub_toNat _ 1
  rw [← hadd, ← hsub]
  exact ⟨execWritesReg_of_exec (exec_inc rd s), execWritesReg_of_exec (exec_dec rd s)⟩

/-! ### HALT and LOOP (44_control.md R160, R164, R165) -/

/-- Settles O43: HALT's byte decodes to it whatever follows, and its effect is the model's definition. -/
theorem haltStopsCleanly : Obligations.HaltStopsCleanly :=
  ⟨fun _ => rfl, fun _ => rfl⟩

/-- What LOOP does at a zero counter (R164). -/
theorem exec_loop_of_zero {s : State} {rc : RegIx} (h : s.reg rc = 0) (rt : RegIx) :
    exec (.loop rc rt) s = .next (s.jumpTo (s.pc + 3)) :=
  if_pos ((isZero_iff _).mpr h)

/-- What LOOP does at a nonzero counter: the decrement, then the jump to the target read after it (R164, D11). -/
theorem exec_loop_of_ne_zero {s : State} {rc : RegIx} (h : s.reg rc ≠ 0) (rt : RegIx) :
    exec (.loop rc rt) s = .next ((s.countDown rc).jumpTo ((s.countDown rc).reg rt)) :=
  if_neg fun hz => h ((isZero_iff _).mp hz)

/-- The decrement of a nonzero word does not wrap. -/
theorem aluSub_one_toNat {v : Word} (h : v ≠ 0) : (aluSub v 1).toNat + 1 = v.toNat := by
  have hpos : v.toNat ≠ 0 := fun hz => h (BitVec.toNat_eq.mpr hz)
  have hlt : v.toNat < 2 ^ 64 := v.isLt
  have hone : (1 : Word).toNat = 1 := rfl
  rw [aluSub, BitVec.toNat_sub, hone]
  omega

/-- Settles O45: at zero LOOP only moves `pc` past itself; otherwise it is the decrement of its counter and a move of
`pc`. -/
theorem loopCountsDownAndJumps : Obligations.LoopCountsDownAndJumps := by
  intro rc rt s
  refine ⟨fun hz => execSetsPc_of_exec (exec_loop_of_zero hz rt), fun hz => ⟨_, exec_loop_of_ne_zero hz rt, ?_, rfl, ?_⟩⟩
  · rw [State.jumpTo_reg, State.countDown, State.reg_setReg_self]
    exact aluSub_one_toNat hz
  · exact {
      regs := fun r hr => State.reg_setReg_other s rc r _ hr
      mem := fun _ => rfl
      rest := ⟨rfl, rfl, rfl, rfl, rfl, rfl, rfl, rfl, rfl⟩ }

/-- A Running core whose `pc` is moved to or past the end of its program halts there at the next Step. -/
theorem step_jumpTo_past_end {s : State} (hr : s.status = .running) {target : Word}
    (h : s.codeSize ≤ target.toNat) : step (s.jumpTo target) = .next { s with pc := target, status := .halted } :=
  step_of_endOfProgram (s := s.jumpTo target) hr h

/-- Settles O46: each taken transfer is a move of `pc`, LOOP's after the decrement, and the next Step halts there. -/
theorem jumpPastTheProgramHaltsNext : Obligations.JumpPastTheProgramHaltsNext := by
  intro rc rt s hr
  refine ⟨fun hp => ⟨⟨_, exec_jump rt s, step_jumpTo_past_end hr hp⟩, fun hz => ?_, fun hz => ?_⟩,
    fun hz target htarget hp => ?_⟩
  · have hne : (s.reg rc).toNat ≠ 0 := fun h0 => hz (BitVec.toNat_eq.mpr h0)
    refine ⟨_, exec_jumpIfNz rc rt s, ?_⟩
    rw [if_pos hne]
    exact step_jumpTo_past_end hr hp
  · have h0 : (s.reg rc).toNat = 0 := by rw [hz]; rfl
    refine ⟨_, exec_jumpIfZ rc rt s, ?_⟩
    rw [if_pos h0]
    exact step_jumpTo_past_end hr hp
  · have hread : (s.countDown rc).reg rt = target := (State.reg_setReg s rc rt _).trans htarget.symm
    refine ⟨_, exec_loop_of_ne_zero hz rt, ?_⟩
    rw [hread]
    exact step_jumpTo_past_end (s := s.countDown rc) hr hp

end Sys2Proof.HandlerProofs

namespace Sys2Proof.TrapProofs

open Sys2Proof Machine Safety InvariantProofs

/-! ### GETC (45_trap_print.md R182) -/

/-- GETC with a byte ready takes it (log entry 18). -/
theorem getc_of_byte {s : State} {b : Byte} {rest : List Byte} (h : s.input = b :: rest) (rv : RegIx) :
    getc rv s = { getcDone rv (inputWord b) s with input := rest } := by
  simp only [getc, h]

/-- GETC with no byte ready waits while the input has not ended (R34). -/
theorem getc_of_noByte {s : State} (h : s.input = []) (he : s.inputEnded = false) (rv : RegIx) :
    getc rv s = s.wait := by
  simp [getc, h, he]

/-- GETC with no byte ready at the end of the input is decided by GETC_EOF (D15). -/
theorem getc_of_inputEnded {s : State} (h : s.input = []) (he : s.inputEnded = true) (rv : RegIx) :
    getc rv s = getcAtEnd Config.getcEof rv s := by
  simp [getc, h, he]

/-- An input byte counts the same in a register: bits 63 to 8 are zero. -/
theorem inputWord_toNat (b : Byte) : (inputWord b).toNat = b.toNat := by
  rw [inputWord, BitVec.toNat_setWidth]
  exact Nat.mod_eq_of_lt (Nat.lt_trans b.isLt (by decide))

/-- Settles O48: GETC with a byte ready is a register write of the byte, with the byte taken off the input. -/
theorem getcTakesTheNextByte : Obligations.GetcTakesTheNextByte := by
  intro rn rv b rest s hn hin
  refine ⟨_, (exec_trap_of_getc hn rv).trans (congrArg _ (getc_of_byte hin rv)), ?_,
    fun r hr => State.reg_setReg_other (s.past .rr) rv r _ hr, rfl, rfl⟩
  exact (congrArg BitVec.toNat (State.reg_setReg_self (s.past .rr) rv (inputWord b))).trans (inputWord_toNat b)

/-- Settles O49: without a byte the end of the input decides between the wait and the three values of GETC_EOF. -/
theorem getcWithoutInputWaits : Obligations.GetcWithoutInputWaits := by
  intro rn rv s hn hin
  refine ⟨fun he => ?_, fun he => ?_⟩
  · exact (exec_trap_of_getc hn rv).trans (congrArg _ (getc_of_noByte hin he rv))
  · rw [exec_trap_of_getc hn, getc_of_inputEnded hin he]
    cases Config.getcEof with
    | hold | keep | store v => rfl

/-- A core that waits already is as the wait leaves it. -/
theorem wait_of_getcWait {s : State} (h : s.getcWait = true) : s.wait = s := by
  cases s
  cases h
  rfl

/-- Settles O50: a Step of a waiting core with no byte waits again, which changes nothing, and a delivery leaves the
fetch and gives the GETC its byte. -/
theorem getcWaitHoldsUntilDelivery : Obligations.GetcWaitHoldsUntilDelivery := by
  intro rn rv s hw hf hn hin he
  refine ⟨run_of_step_self ?_, fun b => ?_⟩
  · rw [step_of_instr hf, exec_trap_of_getc hn, getc_of_noByte hin he, wait_of_getcWait hw]
  · have hin' : (s.deliver b).input = b :: [] := by rw [State.deliver_input, hin, List.nil_append]
    obtain ⟨t, hx, hval, -, hrest, ht⟩ := getcTakesTheNextByte rn rv b [] (s.deliver b) hn hin'
    refine ⟨t, (step_of_instr ((State.deliver_fetch s b).trans hf)).trans hx, hval, ?_, hrest, ?_⟩
    · rw [ht]
    · rw [ht, State.deliver_pc]

/-! ### Unknown trap numbers (45_trap_print.md R183) -/

/-- What TRAP does with a number of 2 or more (R183, D13). -/
theorem exec_trap_of_unknown {rn : RegIx} {s : State} (h : 2 ≤ (s.reg rn).toNat) (rv : RegIx) :
    exec (.trap rn rv) s = .next (unknownTrap (s.reg rn) s) := by
  have h0 : s.reg rn ≠ trapPutc := fun he => by rw [he] at h; exact absurd h (by decide)
  have h1 : s.reg rn ≠ trapGetc := fun he => by rw [he] at h; exact absurd h (by decide)
  simp only [exec, execTrap, if_neg h0, if_neg h1]

/-- Settles O51: an unknown trap moves `pc` and logs its number. -/
theorem unknownTrapIsANoOp : Obligations.UnknownTrapIsANoOp :=
  fun _ rv _ h => exec_trap_of_unknown h rv

end Sys2Proof.TrapProofs

namespace Sys2Proof.RenderProofs

open Sys2Proof Machine

/-! ### Decimal digits (45_trap_print.md R185) -/

theorem decimalDigits_lt (fuel v : Nat) : ∀ d ∈ decimalDigits fuel v, d < 10 := by
  induction fuel generalizing v with
  | zero =>
    intro d hd
    rw [decimalDigits, List.mem_singleton] at hd
    omega
  | succ fuel ih =>
    intro d hd
    rw [decimalDigits] at hd
    split at hd
    · next hv => rwa [List.mem_singleton.mp hd]
    · rcases List.mem_append.mp hd with hd | hd
      · exact ih (v / 10) d hd
      · rw [List.mem_singleton] at hd
        omega

/-- The digits stand for the value, as far as the fuel reaches. -/
theorem decimalDigits_value (fuel v : Nat) (hv : v < 10 ^ (fuel + 1)) :
    (decimalDigits fuel v).foldl (fun n d => 10 * n + d) 0 = v := by
  induction fuel generalizing v with
  | zero =>
    rw [decimalDigits, List.foldl_cons, List.foldl_nil]
    omega
  | succ fuel ih =>
    rw [decimalDigits]
    split
    · rw [List.foldl_cons, List.foldl_nil, Nat.mul_zero, Nat.zero_add]
    · have hdiv : v / 10 < 10 ^ (fuel + 1) := Nat.div_lt_of_lt_mul (by rwa [Nat.pow_succ'] at hv)
      rw [List.foldl_append, ih (v / 10) hdiv, List.foldl_cons, List.foldl_nil]
      exact Nat.div_add_mod v 10

theorem decimalDigits_ne_nil (fuel v : Nat) : decimalDigits fuel v ≠ [] := by
  cases fuel with
  | zero => exact List.cons_ne_nil _ _
  | succ fuel =>
    rw [decimalDigits]
    split
    · exact List.cons_ne_nil _ _
    · exact List.append_ne_nil_of_right_ne_nil _ (List.cons_ne_nil _ _)

/-- Only zero itself begins with a zero: the digits before the last are those of `v / 10`, which is not 0. -/
theorem decimalDigits_no_leading_zero (fuel v : Nat) (hv : v < 10 ^ (fuel + 1))
    (h : (decimalDigits fuel v).head? = some 0) : decimalDigits fuel v = [0] := by
  induction fuel generalizing v with
  | zero =>
    rw [decimalDigits] at h ⊢
    exact congrArg (fun d => [d]) (Option.some.inj h)
  | succ fuel ih =>
    rw [decimalDigits] at h ⊢
    split at h
    · next hlt => rw [if_pos hlt, Option.some.inj h]
    · next hge =>
      have hdiv : v / 10 < 10 ^ (fuel + 1) := Nat.div_lt_of_lt_mul (by rwa [Nat.pow_succ'] at hv)
      rw [List.head?_append_of_ne_nil _ (decimalDigits_ne_nil fuel (v / 10))] at h
      have hval := decimalDigits_value fuel (v / 10) hdiv
      rw [ih (v / 10) hdiv h, List.foldl_cons, List.foldl_nil] at hval
      omega

/-- Settles O53: the digits of a 64-bit value are at most 20, so that `decimalDigits` has the fuel; OUT renders event by
event as a `flatMap`. -/
theorem decRendersAsDecimalDigits : Obligations.DecRendersAsDecimalDigits := by
  refine ⟨fun _ => rfl, fun v => ?_, fun s e => ?_⟩
  · have hv : v.toNat < 10 ^ (19 + 1) := Nat.lt_trans v.isLt (by decide)
    exact ⟨decimalDigits 19 v.toNat, rfl, decimalDigits_lt 19 v.toNat, decimalDigits_value 19 v.toNat hv,
      decimalDigits_ne_nil 19 v.toNat, decimalDigits_no_leading_zero 19 v.toNat hv⟩
  · simp only [State.renderOut, State.emit_out, List.flatMap_append, List.flatMap_singleton]

end Sys2Proof.RenderProofs

namespace Sys2Proof.DiagProofs

open Sys2Proof Machine InvariantProofs TrapPrintProofs

/-! ### The diagnostic log replaced (92_eei_decisions.md D16) -/

/-- The state with another diagnostic log. -/
def withDiag (s : State) (d : List DiagEntry) : State := { s with diag := d }

@[simp] theorem withDiag_fetch (s : State) (d : List DiagEntry) : (withDiag s d).fetch = s.fetch :=
  State.fetch_congr rfl rfl rfl rfl rfl

/-- A change of the next state of an outcome. -/
def mapNext (g : State → State) : Host.Outcome State Fault Refusal → Host.Outcome State Fault Refusal
  | .next t => .next (g t)
  | .fault r => .fault r
  | .refused r => .refused r

/-- At `s` the operation does not read the diagnostic log: with another log it answers the same state, but for the
log, to which it appends the same entries. -/
def LogBlind (f : State → Host.Outcome State Fault Refusal) (s : State) : Prop :=
  ∀ t d, f s = .next t → ∃ es, t.diag = s.diag ++ es ∧ f (withDiag s d) = .next (withDiag t (d ++ es))

/-- An operation that commutes with the replacement of the log appends nothing: with the log that is there already, it
leaves that log. -/
theorem logBlind_of_commutes {f : State → Host.Outcome State Fault Refusal} {s : State}
    (h : ∀ d, f (withDiag s d) = mapNext (withDiag · d) (f s)) : LogBlind f s := by
  intro t d ht
  have hself : t = withDiag t s.diag := by
    have hs := h s.diag
    rw [ht] at hs
    exact Host.Outcome.next.inj (ht.symm.trans hs)
  refine ⟨[], ?_, ?_⟩
  · rw [List.append_nil, hself]
    rfl
  · rw [h d, ht, List.append_nil]
    rfl

/-- Two operations that agree at `s` under every log are blind together. -/
theorem logBlind_congr {f g : State → Host.Outcome State Fault Refusal} {s : State}
    (hfg : ∀ d, f (withDiag s d) = g (withDiag s d)) (hg : LogBlind g s) : LogBlind f s := by
  intro t d ht
  rw [hfg d]
  exact hg t d ((hfg s.diag).symm.trans ht)

/-! ### TRAP and the log -/

/-- GETC neither reads nor writes the log, whatever the input holds. -/
theorem getc_withDiag (rv : RegIx) (s : State) (d : List DiagEntry) :
    getc rv (withDiag s d) = withDiag (getc rv s) d := by
  cases hin : s.input with
  | cons b rest => rw [TrapProofs.getc_of_byte hin, TrapProofs.getc_of_byte (s := withDiag s d) hin]; rfl
  | nil =>
    cases he : s.inputEnded with
    | false =>
      rw [TrapProofs.getc_of_noByte hin he, TrapProofs.getc_of_noByte (s := withDiag s d) hin he]
      rfl
    | true =>
      rw [TrapProofs.getc_of_inputEnded hin he, TrapProofs.getc_of_inputEnded (s := withDiag s d) hin he]
      cases Config.getcEof with
      | hold | keep | store v => rfl

/-- An unknown trap appends its one entry to whatever log there is (R183). -/
theorem logBlind_unknownTrap (n : Word) (s : State) : LogBlind (fun u => .next (unknownTrap n u)) s := by
  intro t d ht
  obtain rfl := Host.Outcome.next.inj ht
  exact ⟨[{ number := n, position := s.pc }], rfl, rfl⟩

/-- TRAP is one of its three operations, whatever log there is, and each of them is blind. -/
theorem logBlind_trap (rn rv : RegIx) (s : State) : LogBlind (exec (.trap rn rv)) s := by
  by_cases h0 : s.reg rn = trapPutc
  · refine logBlind_of_commutes fun d => ?_
    rw [exec_trap_of_putc h0, exec_trap_of_putc (s := withDiag s d) h0]
    rfl
  · by_cases h1 : s.reg rn = trapGetc
    · refine logBlind_of_commutes fun d => ?_
      rw [exec_trap_of_getc h1, exec_trap_of_getc (s := withDiag s d) h1, getc_withDiag]
      rfl
    · have hexec (d : List DiagEntry) :
          exec (.trap rn rv) (withDiag s d) = .next (unknownTrap (s.reg rn) (withDiag s d)) :=
        (if_neg (c := s.reg rn = trapPutc) h0).trans (if_neg (c := s.reg rn = trapGetc) h1)
      exact logBlind_congr hexec (logBlind_unknownTrap (s.reg rn) s)

/-! ### Every instruction and every Step -/

/-- No instruction reads the log. An instruction with a test takes the same branch, as the test reads a register or
`memory_size`. -/
theorem logBlind_exec (i : Instr) (s : State) : LogBlind (exec i) s := by
  cases i with
  | trap rn rv => exact logBlind_trap rn rv s
  | loadAddr | storeAddr | div | jumpIfNz | jumpIfZ | loop =>
    refine logBlind_of_commutes fun d => ?_
    simp only [exec, execLoadAddr, execStoreAddr, execDiv, execJumpIfNz, execJumpIfZ, execLoop,
      apply_ite (mapNext (withDiag · d))]
    rfl
  | halt | load | move | add | sub | mul | inc | dec | and | not | or | xor | cmp | jump | print =>
    exact logBlind_of_commutes fun _ => rfl

theorem logBlind_step (s : State) : LogBlind step s := by
  cases hf : s.fetch with
  | instr i =>
    exact logBlind_congr (fun d => step_of_instr ((withDiag_fetch s d).trans hf)) (logBlind_exec i s)
  | stopped | endOfProgram | noByte | unknownOpcode | truncated =>
    refine logBlind_of_commutes fun d => ?_
    simp only [step, withDiag_fetch, hf]
    rfl

/-- Settles O54: the fetch does not read the log (`withDiag_fetch`) and neither does an instruction. -/
theorem diagnosticLogIsNeverRead : Obligations.DiagnosticLogIsNeverRead :=
  fun s t d h => logBlind_step s t d h

end Sys2Proof.DiagProofs
